-- ==== Sys2Proof/Word.lean ====
section
/-! DEFINITION. The Word and the byte (10_state.md R10, 00_scope.md R7). -/

namespace Sys2Proof

/-- A Word: an unsigned 32-bit integer, exactly `2^32` values (R10). -/
abbrev Word := BitVec 32

/-- A byte of the byte channel: an integer 0 to 255 (R7). -/
abbrev Byte := BitVec 8

/-- The all-ones Word, `2^32 - 1` (R7). -/
abbrev Word.allOnes : Word := 0xFFFFFFFF#32

end Sys2Proof
end

