-- ==== Sys2Proof/Syntax.lean ====
section
/-! DEFINITION. The instruction set as syntax: register selectors, the platter (the decoder's output tuple,
30_encoding.md R69) and the instructions (30_encoding.md R65, R66). -/

namespace Sys2Proof

/-- A register selector, 0 to 7; every value names a register (10_state.md R11). -/
abbrev Reg := Fin 8

/-- The immediate of the immediate layout, 25 bits, unsigned (30_encoding.md R67). -/
abbrev Imm := BitVec 25

/-- The two layouts of an instruction word (30_encoding.md R60). -/
inductive Layout where
  /-- standard layout, format S (R62) -/
  | standard
  /-- immediate layout, format I (R63) -/
  | immediate
  deriving DecidableEq, Repr

/-- The platter, the decoder's whole output (30_encoding.md R69). All five operand fields are computed for every
word, and `layout` says which of them are meaningful (R70). -/
structure Platter where
  /-- the operator code, 0 to 15 -/
  op : Fin 16
  /-- true exactly for the codes 0 to 13 -/
  legal : Bool
  layout : Layout
  a : Reg
  b : Reg
  c : Reg
  /-- the selector of the immediate layout, which the source also calls A (90_conflicts.md C6) -/
  a13 : Reg
  imm : Imm
  deriving DecidableEq, Repr

/-- The instructions: one constructor per row of spec/opcode_table.json. Fields that an instruction does not use
(30_encoding.md R66) and the ignored bits 27 to 9 (R64) have no place here, since no behaviour depends on them. -/
inductive Instr where
  /-- code 0: conditional move; destination A, source B, condition C -/
  | cmov (a b c : Reg)
  /-- code 1: array index; destination A, register with the address B, register with the offset C -/
  | index (a b c : Reg)
  /-- code 2: array amend; register with the address A, with the offset B, with the value C -/
  | amend (a b c : Reg)
  /-- code 3: addition -/
  | add (a b c : Reg)
  /-- code 4: multiplication -/
  | mul (a b c : Reg)
  /-- code 5: division; dividend B, divisor C -/
  | div (a b c : Reg)
  /-- code 6: bitwise NAND -/
  | nand (a b c : Reg)
  /-- code 7: halt -/
  | halt
  /-- code 8: allocation; destination B receives the address, C holds the length -/
  | alloc (b c : Reg)
  /-- code 9: abandonment; C holds the address -/
  | abandon (c : Reg)
  /-- code 10: output; C holds the byte -/
  | out (c : Reg)
  /-- code 11: input (the table's IN); destination C -/
  | inp (c : Reg)
  /-- code 12: load program; B holds the source array's address, C the new finger -/
  | loadprog (b c : Reg)
  /-- code 13: orthography, load immediate; destination A13 -/
  | ortho (a : Reg) (imm : Imm)
  /-- code 14: illegal, an unimplemented operator -/
  | illegal14
  /-- code 15: illegal, an unimplemented operator -/
  | illegal15
  deriving DecidableEq, Repr

end Sys2Proof
end

