-- ==== Sys2Proof/WellFormed.lean ====
section
/-! DEFINITION. Checks on syntax that the types do not make already. A register selector, the immediate and the
operator code are in range by their types; what is left is checked here. -/

namespace Sys2Proof

/-- An instruction is well formed when its operator code is implemented, that is one of 0 to 13 (30_encoding.md R68,
R71). The illegal codes are constructors all the same, because executing one has a meaning (40_cycle_and_control.md
R91). -/
def Instr.wellFormed : Instr → Bool
  | .cmov _ _ _ | .index _ _ _ | .amend _ _ _ | .add _ _ _ | .mul _ _ _ | .div _ _ _ | .nand _ _ _ => true
  | .halt | .alloc _ _ | .abandon _ | .out _ | .inp _ | .loadprog _ _ | .ortho _ _ => true
  | .illegal14 | .illegal15 => false

/-- A platter is well formed when `legal` and `layout` say of the operator code what 30_encoding.md R61 and R69 say:
legal exactly up to code 13, immediate layout exactly at code 13. -/
def Platter.wellFormed (p : Platter) : Bool :=
  (p.legal == decide (p.op.val ≤ 13)) && (decide (p.layout = .immediate) == decide (p.op.val = 13))

/-- `PROG_MAX`, the greatest length of a loaded program and of any array, in Words (00_scope.md R6). -/
def progMax : Nat := 2 ^ 32 - 1

/-- A program the LOAD port accepts: at most `PROG_MAX` Words and nothing else checked (70_reset_and_hazards.md R161). -/
def programWellFormed (p : List Word) : Bool := decide (p.length ≤ progMax)

end Sys2Proof
end

