-- ==== Sys2Proof/Machine/State.lean ====
section
/-! DEFINITION. The machine's state as plain data (10_state.md R28) and its value at reset, the reasons a step can
stop, and the canonical form of the array store. -/

namespace Sys2Proof.Machine

/-- The kinds of a Fatal Machine Fault (60_exceptions.md R131), in the order of their codes 1 to 9. -/
inductive FaultKind where
  /-- code 1: INDEX, AMEND, ABANDON or LOADPROG names an inactive address (R133) -/
  | unallocatedAddress
  /-- code 2: MemAllocAt is asked for address 0; no instruction reaches it (R134) -/
  | zeroAddressAllocation
  /-- code 3: MemAllocAt is asked for an active address; no instruction reaches it (R135) -/
  | reallocationOfActiveAddress
  /-- code 4: OUT of a value above 255 (R136) -/
  | outputOutOfRange
  /-- code 5: DIV by zero (R137) -/
  | divisionByZero
  /-- code 6: address 0 is inactive at a fetch (R138) -/
  | programAbsent
  /-- code 7: an operator code 14 or 15 is executed (R139) -/
  | unimplementedOperator
  /-- code 8: INDEX or AMEND at an offset not below the array's length (R140) -/
  | offsetOutOfBounds
  /-- code 9: ALLOC with every non-zero address active (R142) -/
  | addressSpaceExhausted
  deriving DecidableEq, Repr

/-- The engine state (10_state.md R18) with the fault record in FAILED (R19). -/
inductive Engine where
  | running
  | halted
  | failed (kind : FaultKind)
  deriving DecidableEq, Repr

/-- An answer of the byte source: a byte, or the end-of-stream marker EOS, which no byte equals (43_io.md R123). -/
inductive InAnswer where
  | byte (b : Byte)
  | eos
  deriving DecidableEq, Repr, Inhabited

/-- An array: its length in Words and its non-zero elements as (offset, value) pairs; an element that is not listed is
0, as an element nobody has written is (20_memory.md R37). Log 9. -/
structure WordArray where
  len : Nat
  cells : List (Nat × Word)
  deriving DecidableEq, Repr

/-- The array store: a partial map from addresses to arrays (20_memory.md R30), as (address, array) pairs; an address is
active when it is listed. Log 9. -/
structure Memory where
  arrays : List (Nat × WordArray)
  deriving DecidableEq, Repr

/-- Keys strictly rising, which also says that no key is listed twice. -/
abbrev Rising {α : Type} (l : List (Nat × α)) : Prop := l.Pairwise (fun p q => p.1 < q.1)

/-- The canonical form of an array: offsets rising and below the length, no listed element equal to what an unlisted
one reads as, and the length at most `2^32 - 1` (00_scope.md R6). -/
abbrev WordArray.wf (x : WordArray) : Prop :=
  Rising x.cells ∧ (∀ p ∈ x.cells, p.1 < x.len ∧ p.2 ≠ 0#32) ∧ x.len < 2 ^ 32

/-- The canonical form of the array store: addresses rising and 32 bits wide (00_scope.md R6), every array canonical. -/
abbrev Memory.wf (m : Memory) : Prop :=
  Rising m.arrays ∧ ∀ p ∈ m.arrays, p.1 < 2 ^ 32 ∧ p.2.wf

/-- The whole state of one machine (10_state.md R28), with one field of the model's own, `script`. -/
structure State where
  /-- r0 to r7 (10_state.md R11) -/
  regs : Vector Word 8
  /-- the execution finger (10_state.md R14) -/
  pc : Word
  /-- the engine state and, in FAILED, the fault record (10_state.md R18, R19) -/
  engine : Engine
  /-- the array store (10_state.md R24, 20_memory.md R30) -/
  mem : Memory
  /-- the allocator's bookkeeping: how many addresses it has drawn (10_state.md R26, log 3) -/
  allocator : Nat
  /-- the output trace, oldest byte first (10_state.md R25) -/
  output : List Byte
  /-- the input position: how many InByte transactions have completed (10_state.md R25) -/
  inPos : Nat
  /-- the model's own field: the byte source's next answers as far as a premise or a test fixes them; where the list
  is empty the answer is the free value `Config.input` (log 5, log 6) -/
  script : List InAnswer
  deriving DecidableEq, Repr

/-- Why a step stops with no next state although the machine's own faults are all next states (log 1). -/
inductive Fault where
  /-- Raised by LOADPROG when its source array is active and address 0 is not: the spec defines MemDupTo0 with address
  0 active only (20_memory.md R39, 93 U17). No step reaches it, because such a step fails at fetch. Safe (log 12). -/
  | dupWithoutProgram
  deriving DecidableEq, Repr

/-- Why the model gives no meaning. -/
inductive Refusal where
  /-- Answered by exec for an instruction that has no meaning yet. Safe. -/
  | notModelled (mnemonic : String)
  /-- Answered by the LOAD port (`load`) for a program of more than `PROG_MAX` Words (00_scope.md R6, 93 U14). No step
  answers it. Safe (log 10). -/
  | programTooLong
  deriving DecidableEq, Repr

/-- The machine right after reset with nothing delivered at the LOAD port, that is with the empty program: registers 0,
finger 0, array 0 active and empty, HALTED (70_reset_and_hazards.md R160, R163; 10_state.md R28). Log 4, 6, 8. -/
def State.reset : State where
  regs := Vector.replicate 8 0#32
  pc := 0
  engine := .halted
  mem := { arrays := [(0, { len := 0, cells := [] })] }
  allocator := 0
  output := []
  inPos := 0
  script := []

end Sys2Proof.Machine
end

