-- ==== Sys2Proof/Config.lean ====
section
/-! DEFINITION. The two OPEN parameters of the machine (00_scope.md R6) as free values: constants without a body, of
which no proof can know anything. -/

namespace Sys2Proof

/-- `alloc_choose` (00_scope.md R6, 20_memory.md R37): the draw behind an allocation's choice of address, from the
allocator's bookkeeping and the addresses active at that moment. `Machine.memAlloc` uses the draw where it is a
non-zero inactive address. Log 3 (DESIGN CHOICE). -/
opaque Config.allocDraw : Nat → List Nat → Word

/-- `input` (00_scope.md R6, 43_io.md R123): the byte source's answer to the InByte transaction at an input position
(the number of transactions completed before it). Log 5 (DESIGN CHOICE). -/
opaque Config.input : Nat → Machine.InAnswer

end Sys2Proof
end

