-- ==== Sys2Proof/Decode.lean ====
section
/-! DEFINITION. The decoder (30_encoding.md R60 to R75), a pure and total function of one Word, and after it the
encoder (R74). The decoder refuses no word: the words of operator codes 14 and 15 decode to the two illegal
instructions, which the engine makes fail (R68). -/

namespace Sys2Proof

/-- `w[hi:lo]`, the bit slice of 00_scope.md R7: `floor(w / 2^lo) mod 2^(hi-lo+1)`. -/
def bits (w : Word) (hi lo : Nat) : Nat := w.toNat / 2 ^ lo % 2 ^ (hi - lo + 1)

/-- The 3-bit register selector whose lowest bit is bit `lo`. -/
def selector (w : Word) (lo : Nat) : Reg :=
  ⟨bits w (lo + 2) lo, by unfold bits; rw [Nat.add_sub_cancel_left]; exact Nat.mod_lt _ (by decide)⟩

/-- The operator code, `bits[31:28]` (30_encoding.md R61). -/
def operator (w : Word) : Fin 16 :=
  ⟨bits w 31 28, by unfold bits; exact Nat.mod_lt _ (by decide)⟩

/-- The immediate, `bits[24:0]` (30_encoding.md R63). -/
def immediate (w : Word) : Imm := BitVec.ofNat 25 (bits w 24 0)

/-- The decoding algorithm of 30_encoding.md R75: the word's platter. Code 13 has the immediate layout, every other
code the standard one (R61, R70). -/
def platter (w : Word) : Platter where
  op := operator w
  legal := decide ((operator w).val ≤ 13)
  layout := if (operator w).val = 13 then .immediate else .standard
  a := selector w 6
  b := selector w 3
  c := selector w 0
  a13 := selector w 25
  imm := immediate w

/-- The instruction a platter stands for: the opcode map of 30_encoding.md R65 with the operand roles of R66. -/
def Platter.instr (p : Platter) : Instr :=
  match p.op.val with
  | 0 => .cmov p.a p.b p.c
  | 1 => .index p.a p.b p.c
  | 2 => .amend p.a p.b p.c
  | 3 => .add p.a p.b p.c
  | 4 => .mul p.a p.b p.c
  | 5 => .div p.a p.b p.c
  | 6 => .nand p.a p.b p.c
  | 7 => .halt
  | 8 => .alloc p.b p.c
  | 9 => .abandon p.c
  | 10 => .out p.c
  | 11 => .inp p.c
  | 12 => .loadprog p.b p.c
  | 13 => .ortho p.a13 p.imm
  | 14 => .illegal14
  | _ => .illegal15

/-- The decoder: from an instruction word to the instruction. -/
def decode (w : Word) : Instr := (platter w).instr

/-- The operator code of an instruction (30_encoding.md R65). -/
def Instr.opcode : Instr → Nat
  | .cmov _ _ _ => 0
  | .index _ _ _ => 1
  | .amend _ _ _ => 2
  | .add _ _ _ => 3
  | .mul _ _ _ => 4
  | .div _ _ _ => 5
  | .nand _ _ _ => 6
  | .halt => 7
  | .alloc _ _ => 8
  | .abandon _ => 9
  | .out _ => 10
  | .inp _ => 11
  | .loadprog _ _ => 12
  | .ortho _ _ => 13
  | .illegal14 => 14
  | .illegal15 => 15

/-- `encodeS(op, A, B, C)` of 30_encoding.md R74: bits 27 to 9 zero. -/
def encodeS (op : Nat) (a b c : Reg) : Word :=
  BitVec.ofNat 32 (op * 2 ^ 28 + a.val * 2 ^ 6 + b.val * 2 ^ 3 + c.val)

/-- `encodeI(A13, imm)` of 30_encoding.md R74. -/
def encodeI (a13 : Reg) (imm : Imm) : Word :=
  BitVec.ofNat 32 (13 * 2 ^ 28 + a13.val * 2 ^ 25 + imm.toNat)

/-- The canonical word of an instruction: the syntax table of 30_encoding.md R73 with unused selectors zero. -/
def encode (i : Instr) : Word :=
  match i with
  | .cmov a b c => encodeS 0 a b c
  | .index a b c => encodeS 1 a b c
  | .amend a b c => encodeS 2 a b c
  | .add a b c => encodeS 3 a b c
  | .mul a b c => encodeS 4 a b c
  | .div a b c => encodeS 5 a b c
  | .nand a b c => encodeS 6 a b c
  | .halt => encodeS 7 0 0 0
  | .alloc b c => encodeS 8 0 b c
  | .abandon c => encodeS 9 0 0 c
  | .out c => encodeS 10 0 0 c
  | .inp c => encodeS 11 0 0 c
  | .loadprog b c => encodeS 12 0 b c
  | .ortho a imm => encodeI a imm
  | .illegal14 => encodeS 14 0 0 0
  | .illegal15 => encodeS 15 0 0 0

/-- The Word the opcode table's numbering of `nbits` bits stands for: bit 0 is the least significant bit of the one
word an instruction has (30_encoding.md R60), and bits at `nbits` and above are 0. -/
def tableWord (nbits w : Nat) : Word := BitVec.ofNat 32 (w % 2 ^ nbits)

/-- What the decoder reads from an instruction given as the opcode table numbers it. An instruction is one Word, so
nothing longer is an instruction. -/
def decodeTableWord (nbits w : Nat) : Option Instr :=
  if nbits ≤ 32 then some (decode (tableWord nbits w)) else none

end Sys2Proof
end

