-- ==== Sys2Proof/Machine/Ops.lean ====
section
/-! DEFINITION. The named operations over the state: registers, the MEM port's primitives (20_memory.md R33 to R40), the
finger and the end-of-program check (40_cycle_and_control.md R84, R85), taking a fault (60_exceptions.md R144), the byte
channel's transactions (43_io.md R122, R123), the instruction fetch (40_cycle_and_control.md R81), and the STATUS port. -/

namespace Sys2Proof.Machine

/-! ### Registers (10_state.md R11) -/

/-- `x[r]`. -/
def readReg (s : State) (r : Reg) : Word := s.regs[r.val]

/-- `x[r] <- v`. -/
def writeReg (s : State) (r : Reg) (v : Word) : State := { s with regs := s.regs.set r.val v }

/-! ### Lists of (key, value) pairs with rising keys -/

/-- The value listed under key `k`. -/
def assocGet {α : Type} (k : Nat) : List (Nat × α) → Option α
  | [] => none
  | (a, x) :: t => if a = k then some x else assocGet k t

/-- List `v` under key `k`, in its place, replacing what was listed there. -/
def assocPut {α : Type} (k : Nat) (v : α) : List (Nat × α) → List (Nat × α)
  | [] => [(k, v)]
  | (a, x) :: t =>
    if k < a then (k, v) :: (a, x) :: t
    else if a = k then (k, v) :: t
    else (a, x) :: assocPut k v t

/-- Take key `k` off the list. -/
def assocDel {α : Type} (k : Nat) : List (Nat × α) → List (Nat × α)
  | [] => []
  | (a, x) :: t => if a = k then t else (a, x) :: assocDel k t

/-! ### One array -/

/-- The element at offset `o`; meaningful for `o` below the length. -/
def WordArray.get (x : WordArray) (o : Nat) : Word := (assocGet o x.cells).getD 0#32

/-- The array with `v` at offset `o`; a zero is taken off the list, which keeps the canonical form. -/
def WordArray.set (x : WordArray) (o : Nat) (v : Word) : WordArray :=
  { x with cells := if v = 0#32 then assocDel o x.cells else assocPut o v x.cells }

/-- An array of `n` Words, all zero (20_memory.md R37). -/
def WordArray.zeros (n : Nat) : WordArray := { len := n, cells := [] }

/-- The non-zero Words of a sequence whose first Word has offset `k`, with their offsets. -/
def cellsFrom (k : Nat) : List Word → List (Nat × Word)
  | [] => []
  | w :: t => if w = 0#32 then cellsFrom (k + 1) t else (k, w) :: cellsFrom (k + 1) t

/-- The array that holds a sequence of Words, the first at offset 0 (70_reset_and_hazards.md R161). -/
def WordArray.ofList (p : List Word) : WordArray := { len := p.length, cells := cellsFrom 0 p }

/-! ### The array store's primitives (20_memory.md R33 to R40) -/

/-- `mem(a)`: the array at address `a`, where `a` is active (R30). -/
def memArray (m : Memory) (a : Word) : Option WordArray := assocGet a.toNat m.arrays

/-- The store with the array `x` at address `a`. -/
def memPut (m : Memory) (a : Word) (x : WordArray) : Memory := { arrays := assocPut a.toNat x m.arrays }

/-- `MemPresent(a)` (R33): address `a` is active. -/
def memPresent (m : Memory) (a : Word) : Bool := (memArray m a).isSome

/-- `MemLen(a)` (R34): the length of the array at `a`; its precondition, `a` active, fails exactly where this answers
`none`. -/
def memLen (m : Memory) (a : Word) : Option Nat := (memArray m a).map WordArray.len

/-- `MemRead(a, o)` (R35): the address check, then the offset check, then the Word. -/
def memRead (m : Memory) (a o : Word) : Except FaultKind Word :=
  match memArray m a with
  | none => .error .unallocatedAddress
  | some x => if x.len ≤ o.toNat then .error .offsetOutOfBounds else .ok (x.get o.toNat)

/-- `MemWrite(a, o, v)` (R36): the same checks, then the store with that one element replaced. -/
def memWrite (m : Memory) (a o v : Word) : Except FaultKind Memory :=
  match memArray m a with
  | none => .error .unallocatedAddress
  | some x => if x.len ≤ o.toNat then .error .offsetOutOfBounds else .ok (memPut m a (x.set o.toNat v))

/-- `MemAllocAt(a, n)` (R40): an all-zero array of `n` Words at an address the caller gives. -/
def memAllocAt (m : Memory) (a n : Word) : Except FaultKind Memory :=
  if a = 0#32 then .error .zeroAddressAllocation
  else if memPresent m a then .error .reallocationOfActiveAddress
  else .ok (memPut m a (WordArray.zeros n.toNat))

/-- The least number from `k` on that is not listed, the keys rising. -/
def firstFree {α : Type} (k : Nat) : List (Nat × α) → Nat
  | [] => k
  | (a, _) :: t => if a < k then firstFree k t else if a = k then firstFree (k + 1) t else k

/-- The active addresses, rising. -/
def activeAddresses (m : Memory) : List Nat := m.arrays.map Prod.fst

/-- The choice of a fresh address (R37): some non-zero inactive address, or none where every non-zero address is active.
The draw decides it where the draw is a non-zero inactive address, so that every such address is chosen for some draw;
any other draw stands for the least one. Log 3 (DESIGN CHOICE). -/
def chooseAddress (m : Memory) (draw : Word) : Option Word :=
  let least := firstFree 1 m.arrays
  if least < 2 ^ 32 then
    some (if draw ≠ 0#32 ∧ memPresent m draw = false then draw else BitVec.ofNat 32 least)
  else none

/-- `MemAlloc(n)` (R37), with the draw behind its choice as an argument: MemAllocAt at the chosen address (R40), and the
address. -/
def memAlloc (m : Memory) (draw n : Word) : Except FaultKind (Word × Memory) :=
  match chooseAddress m draw with
  | none => .error .addressSpaceExhausted
  | some a => (memAllocAt m a n).map (fun m' => (a, m'))

/-- `MemFree(a)` (R38): no exception for address 0. -/
def memFree (m : Memory) (a : Word) : Except FaultKind Memory :=
  match memArray m a with
  | none => .error .unallocatedAddress
  | some _ => .ok { arrays := assocDel a.toNat m.arrays }

/-- `MemDupTo0(a)` (R39): array 0 becomes a copy of the array at `a`. Arrays are values here, so the copy shares
nothing. -/
def memDupTo0 (m : Memory) (a : Word) : Except FaultKind Memory :=
  match memArray m a with
  | none => .error .unallocatedAddress
  | some x => .ok (memPut m 0#32 x)

/-! ### The finger and the engine state -/

/-- Phase 5, the end-of-program check (40_cycle_and_control.md R85): HALTED when address 0 is active and the finger is
not below the length of array 0; skipped while address 0 is inactive. -/
def endCheck (s : State) : State :=
  match memLen s.mem 0#32 with
  | some n => if n ≤ s.pc.toNat then { s with engine := .halted } else s
  | none => s

/-- The end of a step after a normal operation: phase 4 increments the finger, then phase 5 (R84, R85). -/
def advance (s : State) : State := endCheck { s with pc := s.pc + 1#32 }

/-- The end of a step after a redirected operation: the finger is the target and is not incremented, then phase 5 (R84,
R85, R90). -/
def redirect (s : State) (target : Word) : State := endCheck { s with pc := target }

/-- The end of a step after HALT: HALTED, the finger left in place (R84, R88). -/
def halt (s : State) : State := { s with engine := .halted }

/-! ### Taking a fault (60_exceptions.md R144) -/

/-- `raise Kind`: the engine state becomes FAILED(Kind), and this is the only change. Nothing is saved elsewhere, control
goes nowhere, and there is no return (R145, R146). Log 1. -/
def raise (k : FaultKind) (s : State) : State := { s with engine := .failed k }

/-- An instruction around a transaction that completes with a result or with a fault kind (00_scope.md R5): the fault is
taken, or the instruction goes on with the result. Either way the machine has a next state. -/
def attempt {α : Type} (r : Except FaultKind α) (s : State) (go : α → State) : Host.Outcome State Fault Refusal :=
  .next
    (match r with
    | .error k => raise k s
    | .ok v => go v)

/-- The numeric fault code (60_exceptions.md R131). -/
def faultCode : FaultKind → Nat
  | .unallocatedAddress => 1
  | .zeroAddressAllocation => 2
  | .reallocationOfActiveAddress => 3
  | .outputOutOfRange => 4
  | .divisionByZero => 5
  | .programAbsent => 6
  | .unimplementedOperator => 7
  | .offsetOutOfBounds => 8
  | .addressSpaceExhausted => 9

/-- The STATUS port (00_scope.md R5): the engine state, with the fault kind in FAILED. -/
def status (s : State) : Engine := s.engine

/-- The fault record (10_state.md R19): a kind in FAILED, no value in RUNNING and HALTED. -/
def faultRecord (s : State) : Option FaultKind :=
  match s.engine with
  | .running => none
  | .halted => none
  | .failed k => some k

/-! ### The byte channel -/

/-- `OutByte(b)` (43_io.md R122): the byte is appended to the output trace. -/
def outByte (s : State) (b : Byte) : State := { s with output := s.output ++ [b] }

/-- `InByte()` (43_io.md R123): the source's answer, and the state with one more transaction completed. Log 5. -/
def inByte (s : State) : InAnswer × State :=
  match s.script with
  | [] => (Config.input s.inPos, { s with inPos := s.inPos + 1 })
  | r :: rest => (r, { s with inPos := s.inPos + 1, script := rest })

/-! ### Fetch -/

/-- Before an instruction is known (40_cycle_and_control.md R80, R81; 10_state.md R29): the instruction word, or the
state in which the step ends without one. In HALTED and FAILED nothing changes, for ever (log 2). In RUNNING, with address
0 inactive, ProgramAbsent is raised. A finger not below the length of array 0, which R29 rules out for a running machine,
halts (log 11). -/
def fetch (s : State) : Except State Word :=
  match s.engine with
  | .halted => .error s
  | .failed _ => .error s
  | .running =>
    match memArray s.mem 0#32 with
    | none => .error (raise .programAbsent s)
    | some x => if x.len ≤ s.pc.toNat then .error (halt s) else .ok (x.get s.pc.toNat)

/-- The store with the Word `w` where the finger `pc` points in array 0, array 0 made active and long enough for it. -/
def placeWord (m : Memory) (pc w : Word) : Memory :=
  let x := (memArray m 0#32).getD (WordArray.zeros 0)
  memPut m 0#32 ({ x with len := max x.len (pc.toNat + 1) }.set pc.toNat w)

end Sys2Proof.Machine
end

