-- ==== Sys2Proof/Machine/Operands.lean ====
section
/-! DEFINITION. Operand forms. The machine has two: a register named by a 3-bit selector (`readReg`, `writeReg`) and the
25-bit immediate (30_encoding.md R67); there are no memory operands, displacements or shifts. Here are the conversions
to and from a Word, and the table of the registers each instruction reads and writes (10_state.md R12). -/

namespace Sys2Proof.Machine

/-- `trunc32(n)`: a natural number reduced modulo `2^32` (00_scope.md R7). -/
def trunc32 (n : Nat) : Word := BitVec.ofNat 32 n

/-- `zext_32(imm)`: the Word with the immediate's numeric value (30_encoding.md R67). -/
def zextImm (imm : Imm) : Word := trunc32 imm.toNat

/-- `zext_32(b)`: the Word with the byte's numeric value (43_io.md R121). -/
def zextByte (b : Byte) : Word := trunc32 b.toNat

/-- The byte with the numeric value of a Word that is at most 255 (43_io.md R120). -/
def byteOf (v : Word) : Byte := BitVec.ofNat 8 v.toNat

/-- The Word IN writes for an answer of the byte source: the byte's value, or all ones at end of stream (43_io.md
R121). -/
def answerWord : InAnswer → Word
  | .byte b => zextByte b
  | .eos => Word.allOnes

/-- The registers an instruction reads, and no other (10_state.md R12). -/
def instrReads : Instr → List Reg
  | .cmov _ b c => [c, b]
  | .index _ b c => [b, c]
  | .amend a b c => [a, b, c]
  | .add _ b c => [b, c]
  | .mul _ b c => [b, c]
  | .div _ b c => [b, c]
  | .nand _ b c => [b, c]
  | .halt => []
  | .alloc _ c => [c]
  | .abandon c => [c]
  | .out c => [c]
  | .inp _ => []
  | .loadprog b c => [b, c]
  | .ortho _ _ => []
  | .illegal14 => []
  | .illegal15 => []

/-- The registers an instruction may write, and no other (10_state.md R12). -/
def instrWrites : Instr → List Reg
  | .cmov a _ _ => [a]
  | .index a _ _ => [a]
  | .amend _ _ _ => []
  | .add a _ _ => [a]
  | .mul a _ _ => [a]
  | .div a _ _ => [a]
  | .nand a _ _ => [a]
  | .halt => []
  | .alloc b _ => [b]
  | .abandon _ => []
  | .out _ => []
  | .inp c => [c]
  | .loadprog _ _ => []
  | .ortho a _ => [a]
  | .illegal14 => []
  | .illegal15 => []

end Sys2Proof.Machine
end

