-- ==== Sys2Proof/Machine/Flags.lean ====
section
/-! DEFINITION. The machine has no flags, condition codes or predicates (10_state.md R21). What stands in their place are
the two tests the ALU supplies to the engine (41_alu_and_move.md R108). -/

namespace Sys2Proof.Machine

/-- `c != 0`, the condition of CMOV and the guard of DIV: any of the `2^32 - 1` non-zero Words. -/
def isNonZero (c : Word) : Bool := c != 0

/-- `c <= 255`, the guard of OUT (43_io.md R120). -/
def fitsByte (c : Word) : Bool := decide (c.toNat ≤ 255)

end Sys2Proof.Machine
end

