-- ==== Sys2Proof/Machine/Alu.lean ====
section
/-! DEFINITION. The Word ALU as a unit and the six instructions that work on registers alone: CMOV, ADD, MUL, DIV, NAND,
ORTHO (41_alu_and_move.md). In each, every source is read from the old state before the destination is written
(R100). -/

namespace Sys2Proof.Machine

/-- `fn = add`: `trunc32(b + c)` (R108). -/
def aluAdd (b c : Word) : Except FaultKind Word := .ok (trunc32 (b.toNat + c.toNat))

/-- `fn = mul`: `trunc32(b * c)`, the product taken in the naturals (R103, R108). -/
def aluMul (b c : Word) : Except FaultKind Word := .ok (trunc32 (b.toNat * c.toNat))

/-- `fn = div`: unsigned floor division, with DivisionByZero for every dividend where the divisor is 0 (R104, R108). -/
def aluDiv (b c : Word) : Except FaultKind Word :=
  if isNonZero c then .ok (trunc32 (b.toNat / c.toNat)) else .error .divisionByZero

/-- `fn = nand`: `~(b & c)` within 32 bits (R105, R108). -/
def aluNand (b c : Word) : Except FaultKind Word := .ok (~~~(b &&& c))

/-- An ALU instruction: the unit's answer for `x[B]` and `x[C]` goes to `x[A]`, or its fault is taken. -/
def execAlu (fn : Word → Word → Except FaultKind Word) (a b c : Reg) (s : State) : Host.Outcome State Fault Refusal :=
  attempt (fn (readReg s b) (readReg s c)) s (fun v => advance (writeReg s a v))

/-- CMOV, code 0 (R101). -/
def execCmov (a b c : Reg) (s : State) : Host.Outcome State Fault Refusal :=
  .next (advance (if isNonZero (readReg s c) then writeReg s a (readReg s b) else s))

/-- ADD, code 3 (R102). -/
def execAdd (a b c : Reg) (s : State) : Host.Outcome State Fault Refusal := execAlu aluAdd a b c s

/-- MUL, code 4 (R103). -/
def execMul (a b c : Reg) (s : State) : Host.Outcome State Fault Refusal := execAlu aluMul a b c s

/-- DIV, code 5 (R104). -/
def execDiv (a b c : Reg) (s : State) : Host.Outcome State Fault Refusal := execAlu aluDiv a b c s

/-- NAND, code 6 (R105). -/
def execNand (a b c : Reg) (s : State) : Host.Outcome State Fault Refusal := execAlu aluNand a b c s

/-- ORTHO, code 13 (R106). -/
def execOrtho (a : Reg) (imm : Imm) (s : State) : Host.Outcome State Fault Refusal :=
  .next (advance (writeReg s a (zextImm imm)))

end Sys2Proof.Machine
end

