-- ==== Sys2Proof/Machine/Arrays.lean ====
section
/-! DEFINITION. The four array instructions: INDEX, AMEND, ALLOC, ABANDON (42_array_ops.md). The address and the offset
come whole from registers and are not combined (R114). -/

namespace Sys2Proof.Machine

/-- INDEX, code 1, the load (R110). -/
def execIndex (a b c : Reg) (s : State) : Host.Outcome State Fault Refusal :=
  attempt (memRead s.mem (readReg s b) (readReg s c)) s (fun v => advance (writeReg s a v))

/-- AMEND, code 2, the store; here A names the register with the address (R111). -/
def execAmend (a b c : Reg) (s : State) : Host.Outcome State Fault Refusal :=
  attempt (memWrite s.mem (readReg s a) (readReg s b) (readReg s c)) s (fun m => advance { s with mem := m })

/-- ALLOC, code 8 (R112): the length is read from C, the fresh address goes to B, whose old value is not read. The address
is an open choice, drawn anew at each allocation (log 3). -/
def execAlloc (b c : Reg) (s : State) : Host.Outcome State Fault Refusal :=
  attempt (memAlloc s.mem (Config.allocDraw s.allocator (activeAddresses s.mem)) (readReg s c)) s
    (fun r => advance (writeReg { s with mem := r.2, allocator := s.allocator + 1 } b r.1))

/-- ABANDON, code 9 (R113): address 0 is no exception. -/
def execAbandon (c : Reg) (s : State) : Host.Outcome State Fault Refusal :=
  attempt (memFree s.mem (readReg s c)) s (fun m => advance { s with mem := m })

end Sys2Proof.Machine
end

