-- ==== Sys2Proof/Machine/Control.lean ====
section
/-! DEFINITION. The instructions whose whole effect is on control: HALT, LOADPROG and the illegal codes
(40_cycle_and_control.md). -/

namespace Sys2Proof.Machine

/-- HALT, code 7 (R88). -/
def execHalt (s : State) : Host.Outcome State Fault Refusal := .next (halt s)

/-- LOADPROG, code 12 (R90): source and target are read first; an inactive source is a fault with nothing changed; else
array 0 becomes a copy, the finger is the target, and the end-of-program check runs on the new array 0. With address 0
inactive, which no step meets, the spec defines no copy (20_memory.md R39; log 12). -/
def execLoadprog (b c : Reg) (s : State) : Host.Outcome State Fault Refusal :=
  match memDupTo0 s.mem (readReg s b) with
  | .error k => .next (raise k s)
  | .ok m =>
    if memPresent s.mem 0#32 then .next (redirect { s with mem := m } (readReg s c)) else .fault .dupWithoutProgram

/-- Operator code 14 (R91): UnimplementedOperator, raised at dispatch before any operand is read. -/
def execIllegal14 (s : State) : Host.Outcome State Fault Refusal := .next (raise .unimplementedOperator s)

/-- Operator code 15 (R91): as code 14. -/
def execIllegal15 (s : State) : Host.Outcome State Fault Refusal := .next (raise .unimplementedOperator s)

end Sys2Proof.Machine
end

