-- ==== Sys2Proof/Machine/Io.lean ====
section
/-! DEFINITION. Byte output and input: OUT and IN (43_io.md). -/

namespace Sys2Proof.Machine

/-- OUT, code 10 (R120): a value above 255 is a fault, not truncated. -/
def execOut (c : Reg) (s : State) : Host.Outcome State Fault Refusal :=
  if fitsByte (readReg s c) then .next (advance (outByte s (byteOf (readReg s c))))
  else .next (raise .outputOutOfRange s)

/-- IN, code 11 (R121): the byte zero-extended, or all ones at end of stream. The step is the one in which the source has
answered (log 7). -/
def execInp (c : Reg) (s : State) : Host.Outcome State Fault Refusal :=
  .next (advance (writeReg (inByte s).2 c (answerWord (inByte s).1)))

end Sys2Proof.Machine
end

