-- ==== Sys2Proof/Machine/Loader.lean ====
section
/-! DEFINITION. Reset with a program at the LOAD port (70_reset_and_hazards.md R160, R161), and the byte order of the
binary program file (20_memory.md R42), which is the loader's and outside the block. -/

namespace Sys2Proof.Machine

/-- `reset(P)` of R160: registers 0, finger 0, `mem = {0 -> P}`, trace empty, RUNNING, and then the end-of-program check,
which halts the machine of the empty program (R163). The two fields that the spec gives no value are as in
`State.reset` (log 4, log 6). -/
def State.ofProgram (p : List Word) : State :=
  endCheck
    { regs := Vector.replicate 8 0#32
      pc := 0
      engine := .running
      mem := { arrays := [(0, WordArray.ofList p)] }
      allocator := State.reset.allocator
      output := []
      inPos := 0
      script := State.reset.script }

/-- The LOAD port: the machine in its reset state with array 0 the delivered sequence, nothing of it checked but its
length (R161; 93 U14). -/
def load (p : List Word) : Host.Outcome State Fault Refusal :=
  if programWellFormed p then .next (State.ofProgram p) else .refused .programTooLong

/-- Four bytes of a program file as a Word, big-endian: the first byte is bits 31 to 24, the fourth bits 7 to 0 (20_memory.md
R42). -/
def wordOfFileBytes (b0 b1 b2 b3 : Byte) : Word :=
  BitVec.ofNat 32 (b0.toNat * 2 ^ 24 + b1.toNat * 2 ^ 16 + b2.toNat * 2 ^ 8 + b3.toNat)

/-- The Words of a binary program file (20_memory.md R42); `none` where the bytes are no whole number of Words, of which
the spec says nothing (91 N9; log 22). -/
def wordsOfFile : List Byte → Option (List Word)
  | [] => some []
  | b0 :: b1 :: b2 :: b3 :: t => (wordsOfFile t).map (wordOfFileBytes b0 b1 b2 b3 :: ·)
  | _ :: _ => none

end Sys2Proof.Machine
end

