-- ==== Sys2Proof/Machine/Step.lean ====
section
/-! DEFINITION. The step (40_cycle_and_control.md R80 to R87): fetch, decode, execute. The advance of the finger and the
end-of-program check are in the meanings, through `advance` and `redirect`. -/

namespace Sys2Proof.Machine

/-- One step (R87). -/
def step (s : State) : Host.Outcome State Fault Refusal :=
  match fetch s with
  | .error t => .next t
  | .ok w => exec (decode w) s

/-- `s` with the instruction that the opcode table numbers `w` (in `nbits` bits) placed in array 0 where the finger points,
and the engine RUNNING, so that the next step runs it. Log 8. -/
def State.withFetchWord (s : State) (nbits w : Nat) : State :=
  { s with engine := .running, mem := placeWord s.mem s.pc (tableWord nbits w) }

end Sys2Proof.Machine
end

