-- ==== Sys2Proof/Safety.lean ====
section
/-! DEFINITION. What claims are stated in: the invariant of a running machine, what counts as a safe and a successful
run, the frame an instruction leaves, the layout of an instruction word, and the tables of faults. -/

namespace Sys2Proof.Safety

open Sys2Proof.Machine

/-- A safe state: the machine has not failed (60_exceptions.md R146). -/
def NotFailed (s : State) : Prop := ∀ k, s.engine ≠ .failed k

/-- The successful end of a run (70_reset_and_hazards.md R170). -/
def Successful (s : State) : Prop := s.engine = .halted

/-- 10_state.md R29: a running machine with address 0 active has its finger inside array 0. -/
def FingerInside (s : State) : Prop :=
  s.engine = .running → ∀ n, memLen s.mem 0#32 = some n → s.pc.toNat < n

/-- The invariant every step keeps: the store is in its canonical form, so that every array has at most `2^32 - 1` Words
(00_scope.md R6), and the finger of a running machine is inside array 0 (10_state.md R29). -/
def Inv (s : State) : Prop := s.mem.wf ∧ FingerInside s

/-- Every register but those of `ws` is unchanged. -/
def RegsSameBut (ws : List Reg) (s t : State) : Prop := ∀ r, r ∉ ws → readReg t r = readReg s r

/-- The byte channel is untouched: no byte emitted, no transaction made. -/
def ChannelSame (s t : State) : Prop := t.output = s.output ∧ t.inPos = s.inPos ∧ t.script = s.script

/-- The engine state after a step that went through the end-of-program check (40_cycle_and_control.md R85): HALTED when
address 0 is active and the finger is not below its length, and else what it was. -/
def EngineChecked (s t : State) : Prop :=
  (∀ n, memLen t.mem 0#32 = some n → n ≤ t.pc.toNat → t.engine = .halted) ∧
    ((∀ n, memLen t.mem 0#32 = some n → t.pc.toNat < n) → t.engine = s.engine)

/-- A normal end (40_cycle_and_control.md R84): the finger goes on by one Word, then the end-of-program check. -/
def EndsNormal (s t : State) : Prop := t.pc = s.pc + 1#32 ∧ EngineChecked s t

/-- The frame of an instruction that works on registers alone: it writes at most the registers of `ws` and ends
normally; the array store, the allocator's bookkeeping and the byte channel are unchanged. -/
def RegisterFrame (ws : List Reg) (s t : State) : Prop :=
  RegsSameBut ws s t ∧ t.mem = s.mem ∧ t.allocator = s.allocator ∧ ChannelSame s t ∧ EndsNormal s t

/-- The frame of an instruction that works on the array store: it writes at most the registers of `ws` and ends normally;
the byte channel is unchanged. What it does to the store is said beside it. -/
def StoreFrame (ws : List Reg) (s t : State) : Prop :=
  RegsSameBut ws s t ∧ ChannelSame s t ∧ EndsNormal s t

/-- A faulted end (60_exceptions.md R144): the engine state is FAILED(kind) and everything else is as it was. -/
def Fails (k : FaultKind) (s t : State) : Prop :=
  t.engine = .failed k ∧ (∀ r, readReg t r = readReg s r) ∧ t.pc = s.pc ∧ t.mem = s.mem ∧ t.allocator = s.allocator ∧
    ChannelSame s t

/-- A word of the standard layout with operator code `op` and selectors A, B, C, whatever its bits 27 to 9
(30_encoding.md R62, R64). -/
def StandardWord (w : Word) (op : Nat) (a b c : Reg) : Prop :=
  bits w 31 28 = op ∧ bits w 8 6 = a.val ∧ bits w 5 3 = b.val ∧ bits w 2 0 = c.val

/-- A word of the immediate layout with selector A13 and the immediate (30_encoding.md R63). -/
def ImmediateWord (w : Word) (a13 : Reg) (imm : Imm) : Prop :=
  bits w 31 28 = 13 ∧ bits w 27 25 = a13.val ∧ bits w 24 0 = imm.toNat

/-- Every word of the standard layout with operator code `op` decodes to `mk A B C`. -/
def DecodesStandard (op : Nat) (mk : Reg → Reg → Reg → Instr) : Prop :=
  ∀ (w : Word) (a b c : Reg), StandardWord w op a b c → decode w = mk a b c

/-- The two stores hold the same array, or none, at address `a`: the same length and the same Word at every offset. -/
def SameArray (m m' : Memory) (a : Word) : Prop :=
  memLen m' a = memLen m a ∧ ∀ o, memRead m' a o = memRead m a o

/-- The faults an instruction can raise once it is fetched (60_exceptions.md R149). -/
def mayRaise : Instr → List FaultKind
  | .cmov _ _ _ => []
  | .index _ _ _ => [.unallocatedAddress, .offsetOutOfBounds]
  | .amend _ _ _ => [.unallocatedAddress, .offsetOutOfBounds]
  | .add _ _ _ => []
  | .mul _ _ _ => []
  | .div _ _ _ => [.divisionByZero]
  | .nand _ _ _ => []
  | .halt => []
  | .alloc _ _ => [.addressSpaceExhausted]
  | .abandon _ => [.unallocatedAddress]
  | .out _ => [.outputOutOfRange]
  | .inp _ => []
  | .loadprog _ _ => [.unallocatedAddress]
  | .ortho _ _ => []
  | .illegal14 => [.unimplementedOperator]
  | .illegal15 => [.unimplementedOperator]

end Sys2Proof.Safety
end

