-- ==== Sys2Proof/Certificates/Slice0/Obligations.lean ====
section
/-! DEFINITION. The statements for the provers. Each docstring names the rule of spec/ it formalises. -/

open Sys2Proof Sys2Proof.Machine Sys2Proof.Safety

/-! ### The step -/

/-- 40_cycle_and_control.md R81, R82: a running machine with address 0 active decodes and executes the Word at the finger of
array 0; with address 0 inactive it fails with ProgramAbsent and nothing else changes. -/
def Obligations.StepRunsDecodedInstruction : Prop :=
  (∀ (s : State) (w : Word), s.engine = .running → memRead s.mem 0#32 s.pc = .ok w → step s = exec (decode w) s) ∧
    (∀ s : State, s.engine = .running → memPresent s.mem 0#32 = false →
      ∃ t, step s = .next t ∧ Fails .programAbsent s t)

/-- 10_state.md R29's last sentences, which the spec marks as its own inference (log 11): a running machine whose finger is
not below the length of array 0, which no run reaches, halts, and nothing but the engine state changes. -/
def Obligations.FetchPastTheEndHalts : Prop :=
  ∀ (s : State) (n : Nat), s.engine = .running → memLen s.mem 0#32 = some n → n ≤ s.pc.toNat →
    step s = .next { s with engine := .halted }

/-- 40_cycle_and_control.md R85: after a step that ends neither failed nor by HALT, the machine is HALTED exactly when
address 0 is active and the finger is not below the length of array 0 as the step left it, and else RUNNING. For LOADPROG
past the end and for ABANDON of address 0 this is the spec's own decision, D17 and D18 (log 16, log 15). -/
def Obligations.EndOfProgramCheckDecides : Prop :=
  ∀ (s t : State) (w : Word), s.engine = .running → memRead s.mem 0#32 s.pc = .ok w → decode w ≠ .halt →
    step s = .next t → NotFailed t →
      (t.engine = .halted ↔ ∃ n, memLen t.mem 0#32 = some n ∧ n ≤ t.pc.toNat) ∧
        (t.engine = .running ↔ ∀ n, memLen t.mem 0#32 = some n → t.pc.toNat < n)

/-- 40_cycle_and_control.md R80: from HALTED and from FAILED nothing ever changes. That the model answers this as a step to
the same state, rather than as no step, is the model's choice (log 2). -/
def Obligations.TerminalStatesNeverChange : Prop :=
  ∀ s : State, s.engine ≠ .running → ∀ n : Nat, Host.Core.run core n s = .next s

/-- 40_cycle_and_control.md R89, the sentence the spec marks as its own inference: HALTED was entered by HALT exactly when
the finger is inside array 0 and the Word there has operator code 7, and by the end-of-program check exactly when the finger
is past the end. -/
def Obligations.HaltedTellsItsCause : Prop :=
  ∀ (s t : State) (w : Word), s.engine = .running → memRead s.mem 0#32 s.pc = .ok w → step s = .next t →
    t.engine = .halted →
      (decode w = .halt ↔ ∃ v, memRead t.mem 0#32 t.pc = .ok v ∧ bits v 31 28 = 7) ∧
        (decode w ≠ .halt ↔ ∃ n, memLen t.mem 0#32 = some n ∧ n ≤ t.pc.toNat)

/-! ### Decoding -/

/-- 95_test_vectors.md 2.1: words written out from the encodings, one or more for every operator code. -/
def Obligations.SampleWordsDecode : Prop :=
  decode 0x00000053#32 = .cmov 1 2 3 ∧ decode 0x10000053#32 = .index 1 2 3 ∧ decode 0x20000053#32 = .amend 1 2 3 ∧
    decode 0x300001FF#32 = .add 7 7 7 ∧ decode 0x40000053#32 = .mul 1 2 3 ∧ decode 0x50000053#32 = .div 1 2 3 ∧
    decode 0x60000053#32 = .nand 1 2 3 ∧ decode 0x7ABCDEF5#32 = .halt ∧ decode 0x80000013#32 = .alloc 2 3 ∧
    decode 0x90000003#32 = .abandon 3 ∧ decode 0xA0000003#32 = .out 3 ∧ decode 0xB0000003#32 = .inp 3 ∧
    decode 0xC0000013#32 = .loadprog 2 3 ∧ decode 0xDB555555#32 = .ortho 5 0x1555555#25 ∧
    decode 0xEABCDEF5#32 = .illegal14 ∧ decode 0xFFFFFFFF#32 = .illegal15

/-- 30_encoding.md R75, with the legality and the layouts of R61, R69 and R70: every field of the platter of every word, as
slices of the word's bits. That fields outside a word's layout are computed too is the spec's decision D10 (log 18). -/
def Obligations.PlatterFieldsAreBitSlices : Prop :=
  ∀ w : Word,
    (platter w).op.val = (w.extractLsb' 28 4).toNat ∧ (platter w).a.val = (w.extractLsb' 6 3).toNat ∧
      (platter w).b.val = (w.extractLsb' 3 3).toNat ∧ (platter w).c.val = (w.extractLsb' 0 3).toNat ∧
      (platter w).a13.val = (w.extractLsb' 25 3).toNat ∧ (platter w).imm = w.extractLsb' 0 25 ∧
      ((platter w).legal = true ↔ (platter w).op.val ≤ 13) ∧
      ((platter w).layout = .immediate ↔ (platter w).op.val = 13) ∧ (platter w).wellFormed = true

/-- 30_encoding.md R65: the operator code alone selects the instruction; a word is the instruction of row `op` exactly when
`w & 0xF0000000 = op * 2^28`, and each row is the row's instruction. -/
def Obligations.OperatorCodeSelectsInstruction : Prop :=
  (∀ (w : Word) (op : Nat), op < 16 →
    ((decode w).opcode = op ↔ w &&& 0xF0000000#32 = BitVec.ofNat 32 (op * 2 ^ 28))) ∧
    DecodesStandard 0 .cmov ∧ DecodesStandard 1 .index ∧ DecodesStandard 2 .amend ∧ DecodesStandard 3 .add ∧
    DecodesStandard 4 .mul ∧ DecodesStandard 5 .div ∧ DecodesStandard 6 .nand ∧
    DecodesStandard 7 (fun _ _ _ => .halt) ∧ DecodesStandard 8 (fun _ b c => .alloc b c) ∧
    DecodesStandard 9 (fun _ _ c => .abandon c) ∧ DecodesStandard 10 (fun _ _ c => .out c) ∧
    DecodesStandard 11 (fun _ _ c => .inp c) ∧ DecodesStandard 12 (fun _ b c => .loadprog b c) ∧
    (∀ (w : Word) (a : Reg) (imm : Imm), ImmediateWord w a imm → decode w = .ortho a imm) ∧
    DecodesStandard 14 (fun _ _ _ => .illegal14) ∧ DecodesStandard 15 (fun _ _ _ => .illegal15)

/-- 30_encoding.md R64: words of the standard layout that differ only in bits 27 to 9, or only in selectors the
instruction does not use (R66), are the same instruction. The reading is the spec's decision D24 (log 13). -/
def Obligations.IgnoredBitsChangeNothing : Prop :=
  ∀ w v : Word, bits w 31 28 = bits v 31 28 → bits w 31 28 ≠ 13 →
    (bits w 8 6 = bits v 8 6 → bits w 5 3 = bits v 5 3 → bits w 2 0 = bits v 2 0 → decode w = decode v) ∧
      (bits w 31 28 ∈ [8, 12] → bits w 5 3 = bits v 5 3 → bits w 2 0 = bits v 2 0 → decode w = decode v) ∧
      (bits w 31 28 ∈ [9, 10, 11] → bits w 2 0 = bits v 2 0 → decode w = decode v) ∧
      (bits w 31 28 ∈ [7, 14, 15] → decode w = decode v)

/-- 30_encoding.md R74, which the spec marks as derived: decoding an encoded instruction gives it back, for every instruction
and every operand value, and so do the platter's fields; encoding a decoded word clears the ignored bits of the standard
layout and gives back a word of the immediate layout. -/
def Obligations.DecodeEncodeRoundTrip : Prop :=
  (∀ i : Instr, decode (encode i) = i) ∧
    (∀ (op : Fin 16) (a b c : Reg), op.val ≠ 13 →
      (platter (encodeS op.val a b c)).op = op ∧ (platter (encodeS op.val a b c)).a = a ∧
        (platter (encodeS op.val a b c)).b = b ∧ (platter (encodeS op.val a b c)).c = c) ∧
    (∀ (a : Reg) (imm : Imm),
      (platter (encodeI a imm)).op = 13 ∧ (platter (encodeI a imm)).a13 = a ∧ (platter (encodeI a imm)).imm = imm) ∧
    (∀ w : Word, (platter w).op.val ≠ 13 →
      encodeS (platter w).op.val (platter w).a (platter w).b (platter w).c = w &&& 0xF00001FF#32) ∧
    (∀ w : Word, (platter w).op.val = 13 → encodeI (platter w).a13 (platter w).imm = w)

/-- 30_encoding.md R71, which the spec marks as derived: every word with operator code 0 to 13 is a legal instruction and
no other word is; the all-zero word is `CMOV r0, r0, r0`, which changes no register, and the all-ones word is illegal. -/
def Obligations.LegalWordsAreCodes0To13 : Prop :=
  (∀ w : Word, (decode w).wellFormed = true ↔ bits w 31 28 ≤ 13) ∧
    decode 0x00000000#32 = .cmov 0 0 0 ∧ decode 0xFFFFFFFF#32 = .illegal15 ∧
    (∀ s : State, ∃ t, exec (decode 0x00000000#32) s = .next t ∧ ∀ r, readReg t r = readReg s r)

/-! ### Reset and the LOAD port -/

/-- 70_reset_and_hazards.md R160, R161 and 10_state.md R13, R17: the machine a loaded program starts in. That the empty
program's is HALTED is the spec's decision D4 (log 17), and the bound on the length D2 (log 10). -/
def Obligations.LoadedMachineState : Prop :=
  ∀ p : List Word, p.length ≤ 2 ^ 32 - 1 → ∃ s, load p = .next s ∧ (∀ r, readReg s r = 0#32) ∧ s.pc = 0#32 ∧
    s.engine = (if p = [] then .halted else .running) ∧ faultRecord s = none ∧ memLen s.mem 0#32 = some p.length ∧
    (∀ (o : Word) (h : o.toNat < p.length), memRead s.mem 0#32 o = .ok p[o.toNat]) ∧
    (∀ a, a ≠ 0#32 → memPresent s.mem a = false) ∧ s.output = [] ∧ s.inPos = 0

/-- 70_reset_and_hazards.md R163, the spec's decision D4 (log 17): the machine's reset state is that of the empty program,
HALTED with no step taken. That the reset state holds no program is the model's choice (log 8). -/
def Obligations.ResetIsTheEmptyProgram : Prop :=
  load [] = .next State.reset ∧ (∀ r, readReg State.reset r = 0#32) ∧ State.reset.pc = 0#32 ∧
    Successful State.reset ∧ memLen State.reset.mem 0#32 = some 0

/-- 93_implementation_defined.md U14 (log 10): a program of more than `PROG_MAX` Words is refused at load. -/
def Obligations.TooLongProgramIsRefused : Prop :=
  ∀ p : List Word, 2 ^ 32 ≤ p.length → load p = .refused .programTooLong

/-- 20_memory.md R42: the byte order of the binary program file, the first byte of a word highest. The file of every sequence
of Words, the four bytes of each from its highest to its lowest, is read as that sequence; the empty file holds no Word, and
any four bytes at the front of a file are one Word before the Words of the rest. -/
def Obligations.ProgramFileIsBigEndian : Prop :=
  (∀ p : List Word,
    wordsOfFile (p.flatMap fun w => [w.extractLsb' 24 8, w.extractLsb' 16 8, w.extractLsb' 8 8, w.extractLsb' 0 8])
      = some p) ∧
    wordsOfFile [] = some [] ∧
    ∀ (b0 b1 b2 b3 : Byte) (rest : List Byte),
      wordOfFileBytes b0 b1 b2 b3 = b0 ++ b1 ++ b2 ++ b3 ∧
        wordsOfFile (b0 :: b1 :: b2 :: b3 :: rest) = (wordsOfFile rest).map (wordOfFileBytes b0 b1 b2 b3 :: ·)

/-! ### Invariants -/

/-- 10_state.md R29, which the spec marks as derived, and the model's canonical form of the store (log 9) hold at reset. -/
def Obligations.InvariantAtReset : Prop := Inv State.reset

/-- They hold of every loaded machine (10_state.md R29, which the spec marks as derived; log 9). -/
def Obligations.InvariantAfterLoad : Prop := ∀ (p : List Word) (s : State), load p = .next s → Inv s

/-- Every step keeps them: the finger of a running machine stays inside array 0 (10_state.md R29, which the spec marks as
derived) and no array outgrows `2^32 - 1` Words (00_scope.md R6); the canonical form is the model's (log 9). -/
def Obligations.StepKeepsInvariant : Prop := ∀ s t : State, Inv s → step s = .next t → Inv t

/-- 60_exceptions.md R138 and the spec's decision D18 (log 15): a step loses address 0 only by an ABANDON of address 0; the
machine is then RUNNING and its next step fails with ProgramAbsent. -/
def Obligations.ProgramLostOnlyByAbandon : Prop :=
  ∀ s t : State, s.mem.wf → s.engine = .running → step s = .next t → memPresent s.mem 0#32 = true →
    memPresent t.mem 0#32 = false →
      (∃ w c, memRead s.mem 0#32 s.pc = .ok w ∧ decode w = .abandon c ∧ readReg s c = 0#32) ∧ t.engine = .running ∧
        ∃ u, step t = .next u ∧ Fails .programAbsent t u

/-- 10_state.md R16, which the spec marks as derived: the increment of the finger never wraps around. -/
def Obligations.FingerIncrementNeverWraps : Prop :=
  ∀ (s : State) (w : Word), Inv s → s.engine = .running → memRead s.mem 0#32 s.pc = .ok w →
    (s.pc + 1#32).toNat = s.pc.toNat + 1

/-- 20_memory.md R31 (b): a non-zero address becomes active only by an ALLOC that answers it and stops being active only by
an ABANDON of it. -/
def Obligations.OnlyAllocActivatesOnlyAbandonFrees : Prop :=
  ∀ (s t : State) (a : Word), s.mem.wf → step s = .next t → a ≠ 0#32 →
    (memPresent s.mem a = false → memPresent t.mem a = true →
      ∃ w b c, memRead s.mem 0#32 s.pc = .ok w ∧ decode w = .alloc b c ∧ readReg t b = a) ∧
    (memPresent s.mem a = true → memPresent t.mem a = false →
      ∃ w c, memRead s.mem 0#32 s.pc = .ok w ∧ decode w = .abandon c ∧ readReg s c = a)

/-! ### Faults -/

/-- 60_exceptions.md R144: a step that fails changes the engine state and nothing else. -/
def Obligations.FaultChangesOnlyTheEngineState : Prop :=
  ∀ (s t : State) (k : FaultKind), s.engine = .running → step s = .next t → t.engine = .failed k → Fails k s t

/-- 60_exceptions.md R149, a table the spec marks as derived: the faults each instruction can raise, and ProgramAbsent at
the fetch of any step. -/
def Obligations.FaultsEachInstructionCanRaise : Prop :=
  (∀ (i : Instr) (s t : State) (k : FaultKind), s.mem.wf → NotFailed s → exec i s = .next t → t.engine = .failed k →
    k ∈ mayRaise i) ∧
  (∀ (s t : State) (k : FaultKind), s.mem.wf → s.engine = .running → step s = .next t → t.engine = .failed k →
    (memPresent s.mem 0#32 = false ∧ k = .programAbsent) ∨
      ∃ w, memRead s.mem 0#32 s.pc = .ok w ∧ k ∈ mayRaise (decode w))

/-- 60_exceptions.md R134, R135 and 20_memory.md R40, the spec's decision D5 (log 20): no step raises ZeroAddressAllocation or
ReallocationOfActiveAddress. -/
def Obligations.AllocationFaultsAreUnreachable : Prop :=
  ∀ s t : State, s.mem.wf → NotFailed s → step s = .next t →
    t.engine ≠ .failed .zeroAddressAllocation ∧ t.engine ≠ .failed .reallocationOfActiveAddress

/-- 60_exceptions.md R141: the order in which fault conditions are tested. The order within INDEX and AMEND is the spec's
decision D19 (log 20). -/
def Obligations.FaultPriority : Prop :=
  (∀ s : State, s.engine = .running → memPresent s.mem 0#32 = false →
    ∃ t, step s = .next t ∧ Fails .programAbsent s t) ∧
  (∀ (s : State) (w : Word), s.engine = .running → memRead s.mem 0#32 s.pc = .ok w → 14 ≤ bits w 31 28 →
    ∃ t, step s = .next t ∧ Fails .unimplementedOperator s t) ∧
  (∀ (a b c : Reg) (s : State), memPresent s.mem (readReg s b) = false →
    ∃ t, exec (.index a b c) s = .next t ∧ Fails .unallocatedAddress s t) ∧
  (∀ (a b c : Reg) (s : State) (n : Nat), memLen s.mem (readReg s b) = some n → n ≤ (readReg s c).toNat →
    ∃ t, exec (.index a b c) s = .next t ∧ Fails .offsetOutOfBounds s t) ∧
  (∀ (a b c : Reg) (s : State), memPresent s.mem (readReg s a) = false →
    ∃ t, exec (.amend a b c) s = .next t ∧ Fails .unallocatedAddress s t) ∧
  (∀ (a b c : Reg) (s : State) (n : Nat), memLen s.mem (readReg s a) = some n → n ≤ (readReg s b).toNat →
    ∃ t, exec (.amend a b c) s = .next t ∧ Fails .offsetOutOfBounds s t)

/-! ### Rules over all instructions -/

/-- 10_state.md R12: a register that the table does not list for an instruction is neither written nor read by it, CMOV
writes only when its condition is not 0, and a step that fails writes none. Not read: two states that differ only in
registers the instruction does not read take the same effect, in every field and in every register but those it leaves
alone in both. -/
def Obligations.RegistersReadAndWritten : Prop :=
  (∀ (i : Instr) (s t : State), exec i s = .next t → ∀ r, r ∉ instrWrites i → readReg t r = readReg s r) ∧
  (∀ (i : Instr) (s s' t : State), (∀ r ∈ instrReads i, readReg s' r = readReg s r) →
    { s' with regs := s.regs } = s → exec i s = .next t →
      ∃ t', exec i s' = .next t' ∧ { t' with regs := t.regs } = t ∧
        ∀ r, readReg t' r = readReg t r ∨ (readReg t r = readReg s r ∧ readReg t' r = readReg s' r)) ∧
  (∀ (a b c : Reg) (s t : State), exec (.cmov a b c) s = .next t → readReg s c = 0#32 →
    ∀ r, readReg t r = readReg s r) ∧
  (∀ (i : Instr) (s t : State) (k : FaultKind), NotFailed s → exec i s = .next t → t.engine = .failed k →
    ∀ r, readReg t r = readReg s r)

/-- 10_state.md R15: the finger after a step of a running machine, in every case. That a fault leaves it in place is the
spec's decision D3 (log 20). -/
def Obligations.FingerAfterStep : Prop :=
  ∀ s t : State, s.engine = .running → step s = .next t →
    (∀ k, t.engine = .failed k → t.pc = s.pc) ∧
      ∀ w, memRead s.mem 0#32 s.pc = .ok w → NotFailed t →
        t.pc = match decode w with
          | .halt => s.pc
          | .loadprog _ c => readReg s c
          | _ => s.pc + 1#32

/-- 10_state.md R14: no instruction reads the finger. Executed with another finger, an instruction has the same effect on
registers, store, bookkeeping and byte channel. -/
def Obligations.NoInstructionReadsTheFinger : Prop :=
  ∀ (i : Instr) (s t : State) (p : Word), exec i s = .next t →
    ∃ u, exec i { s with pc := p } = .next u ∧ u.regs = t.regs ∧ u.mem = t.mem ∧ u.allocator = t.allocator ∧
      u.output = t.output ∧ u.inPos = t.inPos ∧ u.script = t.script

/-- 43_io.md R122, R123, R124: only OUT emits, one byte at the end of the trace, and only IN makes an input transaction, one;
neither touches the other's direction. -/
def Obligations.OnlyOutEmitsOnlyInConsumes : Prop :=
  ∀ (i : Instr) (s t : State), exec i s = .next t →
    (t.output = s.output ∨ ∃ c b, i = .out c ∧ t.output = s.output ++ [b] ∧ b.toNat = (readReg s c).toNat) ∧
      ((t.inPos = s.inPos ∧ t.script = s.script) ∨
        ∃ c, i = .inp c ∧ t.inPos = s.inPos + 1 ∧ t.script = s.script.tail ∧ t.output = s.output)

/-- 20_memory.md R52: along every run the bytes emitted so far stay as they are, in order; no later step, failing or not, takes
one back. -/
def Obligations.EmittedBytesAreNeverTakenBack : Prop :=
  ∀ (n : Nat) (s t : State), Host.Core.run core n s = .next t → ∃ later, t.output = s.output ++ later

/-- 70_reset_and_hazards.md R168 and 20_memory.md R50: a store into array 0, or a replacement of array 0, is seen by the next
fetch; a program that rewrites its next instruction executes the new Word. -/
def Obligations.RewrittenInstructionIsExecutedNext : Prop :=
  (∀ (s : State) (w : Word) (a b c : Reg) (n : Nat), Inv s → s.engine = .running → memRead s.mem 0#32 s.pc = .ok w →
    decode w = .amend a b c → readReg s a = 0#32 → readReg s b = s.pc + 1#32 → memLen s.mem 0#32 = some n →
    s.pc.toNat + 1 < n →
      ∃ t, step s = .next t ∧ t.engine = .running ∧ step t = exec (decode (readReg s c)) t) ∧
  (∀ (s : State) (w v : Word) (b c : Reg), s.engine = .running → memRead s.mem 0#32 s.pc = .ok w →
    decode w = .loadprog b c → memRead s.mem (readReg s b) (readReg s c) = .ok v →
      ∃ t, step s = .next t ∧ t.engine = .running ∧ step t = exec (decode v) t)

/-! ### The ALU and the register moves -/

/-- 41_alu_and_move.md R108: the ALU as a pure function, and the two tests it supplies. -/
def Obligations.AluComputes : Prop :=
  (∀ b c : Word, ∃ v, aluAdd b c = .ok v ∧ v.toNat = (b.toNat + c.toNat) % 2 ^ 32) ∧
  (∀ b c : Word, ∃ v, aluMul b c = .ok v ∧ v.toNat = b.toNat * c.toNat % 2 ^ 32) ∧
  (∀ b : Word, aluDiv b 0#32 = .error .divisionByZero) ∧
  (∀ b c : Word, c ≠ 0#32 → ∃ v, aluDiv b c = .ok v ∧ v.toNat = b.toNat / c.toNat ∧ v.toNat ≤ b.toNat) ∧
  (∀ b c : Word, ∃ v, aluNand b c = .ok v ∧ ∀ i < 32, v.getLsbD i = !(b.getLsbD i && c.getLsbD i)) ∧
  (∀ c : Word, (isNonZero c = true ↔ c ≠ 0#32) ∧ (fitsByte c = true ↔ c.toNat ≤ 255))

/-- 41_alu_and_move.md R109, which the spec marks as derived: NOT, AND, OR, minus one and negation built from NAND and ADD. -/
def Obligations.DerivedAluIdentities : Prop :=
  ∀ b c : Word,
    aluNand b b = .ok (~~~b) ∧ (aluNand b c).bind (fun n => aluNand n n) = .ok (b &&& c) ∧
      ((aluNand b b).bind fun p => (aluNand c c).bind fun q => aluNand p q) = .ok (b ||| c) ∧
      (aluNand 0#32 0#32).bind (fun m => aluAdd b m) = .ok (b - 1#32) ∧
      (aluNand c c).bind (fun n => aluAdd n 1#32) = .ok (0#32 - c) ∧
      (((aluNand c c).bind fun n => aluAdd b n).bind fun d => aluAdd d 1#32) = .ok (b - c)

/-- 41_alu_and_move.md R101. -/
def Obligations.CmovMovesOnNonZero : Prop :=
  DecodesStandard 0 .cmov ∧
  ∀ (a b c : Reg) (s : State),
    encode (.cmov a b c) = BitVec.ofNat 32 (a.val * 64 + b.val * 8 + c.val) ∧
    ∃ t, exec (.cmov a b c) s = .next t ∧ RegisterFrame [a] s t ∧
      readReg t a = if readReg s c ≠ 0#32 then readReg s b else readReg s a

/-- 41_alu_and_move.md R102. -/
def Obligations.AddWritesTheSum : Prop :=
  DecodesStandard 3 .add ∧
  ∀ (a b c : Reg) (s : State),
    encode (.add a b c) = BitVec.ofNat 32 (0x30000000 + a.val * 64 + b.val * 8 + c.val) ∧
    ∃ t, exec (.add a b c) s = .next t ∧ RegisterFrame [a] s t ∧
      (readReg t a).toNat = ((readReg s b).toNat + (readReg s c).toNat) % 2 ^ 32

/-- 41_alu_and_move.md R103. -/
def Obligations.MulWritesTheLowProduct : Prop :=
  DecodesStandard 4 .mul ∧
  ∀ (a b c : Reg) (s : State),
    encode (.mul a b c) = BitVec.ofNat 32 (0x40000000 + a.val * 64 + b.val * 8 + c.val) ∧
    ∃ t, exec (.mul a b c) s = .next t ∧ RegisterFrame [a] s t ∧
      (readReg t a).toNat = (readReg s b).toNat * (readReg s c).toNat % 2 ^ 32

/-- 41_alu_and_move.md R104. -/
def Obligations.DivWritesTheQuotient : Prop :=
  DecodesStandard 5 .div ∧
  (∀ a b c : Reg, encode (.div a b c) = BitVec.ofNat 32 (0x50000000 + a.val * 64 + b.val * 8 + c.val)) ∧
  (∀ (a b c : Reg) (s : State), readReg s c ≠ 0#32 →
    ∃ t, exec (.div a b c) s = .next t ∧ RegisterFrame [a] s t ∧
      (readReg t a).toNat = (readReg s b).toNat / (readReg s c).toNat) ∧
  (∀ (a b c : Reg) (s : State), readReg s c = 0#32 →
    ∃ t, exec (.div a b c) s = .next t ∧ Fails .divisionByZero s t)

/-- 41_alu_and_move.md R105. -/
def Obligations.NandWritesTheComplementedConjunction : Prop :=
  DecodesStandard 6 .nand ∧
  ∀ (a b c : Reg) (s : State),
    encode (.nand a b c) = BitVec.ofNat 32 (0x60000000 + a.val * 64 + b.val * 8 + c.val) ∧
    ∃ t, exec (.nand a b c) s = .next t ∧ RegisterFrame [a] s t ∧
      (readReg t a).toNat = 2 ^ 32 - 1 - (readReg s b &&& readReg s c).toNat ∧
      ∀ i < 32, (readReg t a).getLsbD i = !((readReg s b).getLsbD i && (readReg s c).getLsbD i)

/-- 41_alu_and_move.md R106. -/
def Obligations.OrthoLoadsTheImmediate : Prop :=
  (∀ (w : Word) (a : Reg) (imm : Imm), ImmediateWord w a imm → decode w = .ortho a imm) ∧
  ∀ (a : Reg) (imm : Imm) (s : State),
    encode (.ortho a imm) = BitVec.ofNat 32 (0xD0000000 + a.val * 2 ^ 25 + imm.toNat) ∧
    ∃ t, exec (.ortho a imm) s = .next t ∧ RegisterFrame [a] s t ∧ (readReg t a).toNat = imm.toNat ∧
      (readReg t a).toNat ≤ 0x01FFFFFF

/-! ### The array instructions -/

/-- 42_array_ops.md R110. -/
def Obligations.IndexLoadsTheElement : Prop :=
  DecodesStandard 1 .index ∧
  (∀ a b c : Reg, encode (.index a b c) = BitVec.ofNat 32 (0x10000000 + a.val * 64 + b.val * 8 + c.val)) ∧
  (∀ (a b c : Reg) (s : State) (n : Nat), memLen s.mem (readReg s b) = some n → (readReg s c).toNat < n →
    ∃ t v, exec (.index a b c) s = .next t ∧ memRead s.mem (readReg s b) (readReg s c) = .ok v ∧ readReg t a = v ∧
      RegisterFrame [a] s t) ∧
  (∀ (a b c : Reg) (s : State), memPresent s.mem (readReg s b) = false →
    ∃ t, exec (.index a b c) s = .next t ∧ Fails .unallocatedAddress s t) ∧
  (∀ (a b c : Reg) (s : State) (n : Nat), memLen s.mem (readReg s b) = some n → n ≤ (readReg s c).toNat →
    ∃ t, exec (.index a b c) s = .next t ∧ Fails .offsetOutOfBounds s t)

/-- 42_array_ops.md R111. -/
def Obligations.AmendStoresTheElement : Prop :=
  DecodesStandard 2 .amend ∧
  (∀ a b c : Reg, encode (.amend a b c) = BitVec.ofNat 32 (0x20000000 + a.val * 64 + b.val * 8 + c.val)) ∧
  (∀ (a b c : Reg) (s : State) (n : Nat), s.mem.wf → memLen s.mem (readReg s a) = some n → (readReg s b).toNat < n →
    ∃ t, exec (.amend a b c) s = .next t ∧ StoreFrame [] s t ∧ t.allocator = s.allocator ∧
      memRead t.mem (readReg s a) (readReg s b) = .ok (readReg s c) ∧
      (∀ p q, (p ≠ readReg s a ∨ q ≠ readReg s b) → memRead t.mem p q = memRead s.mem p q) ∧
      ∀ p, memLen t.mem p = memLen s.mem p) ∧
  (∀ (a b c : Reg) (s : State), memPresent s.mem (readReg s a) = false →
    ∃ t, exec (.amend a b c) s = .next t ∧ Fails .unallocatedAddress s t) ∧
  (∀ (a b c : Reg) (s : State) (n : Nat), memLen s.mem (readReg s a) = some n → n ≤ (readReg s b).toNat →
    ∃ t, exec (.amend a b c) s = .next t ∧ Fails .offsetOutOfBounds s t)

/-- 42_array_ops.md R112: whatever the open choice (D6, log 3), the address written is not 0 and was inactive. The fault where
no address is left is the spec's decision D7 (log 24). -/
def Obligations.AllocCreatesAFreshZeroArray : Prop :=
  DecodesStandard 8 (fun _ b c => .alloc b c) ∧
  (∀ b c : Reg, encode (.alloc b c) = BitVec.ofNat 32 (0x80000000 + b.val * 8 + c.val)) ∧
  (∀ (b c : Reg) (s : State), s.mem.wf → (∃ p, p ≠ 0#32 ∧ memPresent s.mem p = false) →
    ∃ t, exec (.alloc b c) s = .next t ∧ StoreFrame [b] s t ∧ readReg t b ≠ 0#32 ∧
      memPresent s.mem (readReg t b) = false ∧ memLen t.mem (readReg t b) = some (readReg s c).toNat ∧
      (∀ o : Word, o.toNat < (readReg s c).toNat → memRead t.mem (readReg t b) o = .ok 0#32) ∧
      ∀ p, p ≠ readReg t b → SameArray s.mem t.mem p) ∧
  (∀ (b c : Reg) (s : State), s.mem.wf → (∀ p, p ≠ 0#32 → memPresent s.mem p = true) →
    ∃ t, exec (.alloc b c) s = .next t ∧ Fails .addressSpaceExhausted s t)

/-- 42_array_ops.md R113. What follows where the address is 0 is the spec's decision D18 (log 15). -/
def Obligations.AbandonRemovesTheArray : Prop :=
  DecodesStandard 9 (fun _ _ c => .abandon c) ∧
  (∀ c : Reg, encode (.abandon c) = BitVec.ofNat 32 (0x90000000 + c.val)) ∧
  (∀ (c : Reg) (s : State), s.mem.wf → memPresent s.mem (readReg s c) = true →
    ∃ t, exec (.abandon c) s = .next t ∧ StoreFrame [] s t ∧ t.allocator = s.allocator ∧
      memPresent t.mem (readReg s c) = false ∧ (∀ p, p ≠ readReg s c → SameArray s.mem t.mem p) ∧
      (readReg s c = 0#32 → s.engine = .running →
        t.engine = .running ∧ ∃ u, step t = .next u ∧ Fails .programAbsent t u)) ∧
  (∀ (c : Reg) (s : State), memPresent s.mem (readReg s c) = false →
    ∃ t, exec (.abandon c) s = .next t ∧ Fails .unallocatedAddress s t)

/-- 42_array_ops.md R115, a table the spec marks as derived: the life of a non-zero address. -/
def Obligations.LifeOfAnAddress : Prop :=
  ∀ (s : State) (a : Word), s.mem.wf → a ≠ 0#32 →
    (memPresent s.mem a = false →
      (∀ x b c, readReg s b = a → ∃ t, exec (.index x b c) s = .next t ∧ Fails .unallocatedAddress s t) ∧
      (∀ x b c, readReg s x = a → ∃ t, exec (.amend x b c) s = .next t ∧ Fails .unallocatedAddress s t) ∧
      (∀ c, readReg s c = a → ∃ t, exec (.abandon c) s = .next t ∧ Fails .unallocatedAddress s t) ∧
      (∀ b c, readReg s b = a → ∃ t, exec (.loadprog b c) s = .next t ∧ Fails .unallocatedAddress s t) ∧
      (∀ n, ∃ d m, memAlloc s.mem d n = .ok (a, m))) ∧
    (∀ n, memLen s.mem a = some n →
      (∀ x b c, readReg s b = a → (readReg s c).toNat < n →
        ∃ t, exec (.index x b c) s = .next t ∧ RegisterFrame [x] s t) ∧
      (∀ x b c, readReg s x = a → (readReg s b).toNat < n →
        ∃ t, exec (.amend x b c) s = .next t ∧ StoreFrame [] s t) ∧
      (∀ x b c, readReg s b = a → n ≤ (readReg s c).toNat →
        ∃ t, exec (.index x b c) s = .next t ∧ Fails .offsetOutOfBounds s t) ∧
      (∀ x b c, readReg s x = a → n ≤ (readReg s b).toNat →
        ∃ t, exec (.amend x b c) s = .next t ∧ Fails .offsetOutOfBounds s t) ∧
      (∀ c, readReg s c = a → ∃ t, exec (.abandon c) s = .next t ∧ memPresent t.mem a = false) ∧
      (∀ b c, readReg s b = a → memPresent s.mem 0#32 = true →
        ∃ t, exec (.loadprog b c) s = .next t ∧ memLen t.mem 0#32 = some n ∧
          (∀ o, memRead t.mem 0#32 o = memRead s.mem a o) ∧ memLen t.mem a = some n) ∧
      (∀ d n' m, memAlloc s.mem d n' ≠ .ok (a, m)))

/-! ### The byte channel -/

/-- 43_io.md R120. -/
def Obligations.OutEmitsTheByte : Prop :=
  DecodesStandard 10 (fun _ _ c => .out c) ∧
  (∀ c : Reg, encode (.out c) = BitVec.ofNat 32 (0xA0000000 + c.val)) ∧
  (∀ (c : Reg) (s : State), (readReg s c).toNat ≤ 255 →
    ∃ t b, exec (.out c) s = .next t ∧ b.toNat = (readReg s c).toNat ∧ t.output = s.output ++ [b] ∧
      RegsSameBut [] s t ∧ t.mem = s.mem ∧ t.allocator = s.allocator ∧ t.inPos = s.inPos ∧ t.script = s.script ∧
      EndsNormal s t) ∧
  (∀ (c : Reg) (s : State), 256 ≤ (readReg s c).toNat →
    ∃ t, exec (.out c) s = .next t ∧ Fails .outputOutOfRange s t)

/-- 43_io.md R121, with the answer of the transaction of R123: what the premise of a claim fixes, or else the oracle's (the
form of the answer is the model's, log 5). -/
def Obligations.InWritesTheAnswer : Prop :=
  DecodesStandard 11 (fun _ _ c => .inp c) ∧
  (∀ c : Reg, encode (.inp c) = BitVec.ofNat 32 (0xB0000000 + c.val)) ∧
  ∀ (c : Reg) (s : State), ∃ t, exec (.inp c) s = .next t ∧
    (match s.script.head?.getD (Config.input s.inPos) with
      | .byte b => (readReg t c).toNat = b.toNat
      | .eos => readReg t c = 0xFFFFFFFF#32) ∧
    RegsSameBut [c] s t ∧ t.mem = s.mem ∧ t.allocator = s.allocator ∧ t.output = s.output ∧
    t.inPos = s.inPos + 1 ∧ t.script = s.script.tail ∧ EndsNormal s t

/-! ### Control -/

/-- 40_cycle_and_control.md R88. That a step after it answers the same state is the model's form of 'no step' (log 2). -/
def Obligations.HaltStopsInPlace : Prop :=
  DecodesStandard 7 (fun _ _ _ => .halt) ∧ encode .halt = 0x70000000#32 ∧
  (∀ s : State, ∃ t, exec .halt s = .next t ∧ t.engine = .halted ∧ t.pc = s.pc ∧ RegsSameBut [] s t ∧ t.mem = s.mem ∧
    t.allocator = s.allocator ∧ ChannelSame s t) ∧
  ∀ (s t : State) (n : Nat), exec .halt s = .next t → Host.Core.run core n t = .next t

/-- 40_cycle_and_control.md R90. That a target past the end halts in the same step is the spec's decision D17 (log 16). -/
def Obligations.LoadprogReplacesTheProgram : Prop :=
  DecodesStandard 12 (fun _ b c => .loadprog b c) ∧
  (∀ b c : Reg, encode (.loadprog b c) = BitVec.ofNat 32 (0xC0000000 + b.val * 8 + c.val)) ∧
  (∀ (b c : Reg) (s : State), memPresent s.mem 0#32 = true → memPresent s.mem (readReg s b) = true →
    ∃ t, exec (.loadprog b c) s = .next t ∧ t.pc = readReg s c ∧ EngineChecked s t ∧
      memLen t.mem 0#32 = memLen s.mem (readReg s b) ∧
      (∀ o, memRead t.mem 0#32 o = memRead s.mem (readReg s b) o) ∧
      (∀ p, p ≠ 0#32 → SameArray s.mem t.mem p) ∧ (readReg s b = 0#32 → ∀ p, SameArray s.mem t.mem p) ∧
      RegsSameBut [] s t ∧ t.allocator = s.allocator ∧ ChannelSame s t) ∧
  (∀ (b c : Reg) (s : State), memPresent s.mem (readReg s b) = false →
    ∃ t, exec (.loadprog b c) s = .next t ∧ Fails .unallocatedAddress s t)

/-- 20_memory.md R39 and 93 U17: in a state that no step executes an instruction in, address 0 inactive, LOADPROG from an
active array has no meaning in the spec; that the model stops there under a name is its choice (log 12). -/
def Obligations.LoadprogWithoutProgramStops : Prop :=
  ∀ (b c : Reg) (s : State), memPresent s.mem 0#32 = false → memPresent s.mem (readReg s b) = true →
    exec (.loadprog b c) s = .fault .dupWithoutProgram

/-- 40_cycle_and_control.md R91. -/
def Obligations.IllegalCodesFail : Prop :=
  DecodesStandard 14 (fun _ _ _ => .illegal14) ∧ DecodesStandard 15 (fun _ _ _ => .illegal15) ∧
  (∀ w : Word, 0xE0000000 ≤ w.toNat ↔ decode w = .illegal14 ∨ decode w = .illegal15) ∧
  ∀ s : State,
    (∃ t, exec .illegal14 s = .next t ∧ Fails .unimplementedOperator s t) ∧
      ∃ t, exec .illegal15 s = .next t ∧ Fails .unimplementedOperator s t

/-! ### The array store's primitives -/

/-- 20_memory.md R35 and R36: a write changes one element and no length, and answers what a read of that element would fault
with. -/
def Obligations.ReadAfterWrite : Prop :=
  (∀ (m m' : Memory) (a o v : Word), m.wf → memWrite m a o v = .ok m' →
    memRead m' a o = .ok v ∧ (∀ p q, (p ≠ a ∨ q ≠ o) → memRead m' p q = memRead m p q) ∧
      ∀ p, memLen m' p = memLen m p) ∧
  (∀ (m : Memory) (a o v : Word), memPresent m a = false →
    memWrite m a o v = .error .unallocatedAddress ∧ memRead m a o = .error .unallocatedAddress) ∧
  (∀ (m : Memory) (a o v : Word) (n : Nat), memLen m a = some n → n ≤ o.toNat →
    memWrite m a o v = .error .offsetOutOfBounds ∧ memRead m a o = .error .offsetOutOfBounds) ∧
  (∀ (m : Memory) (a o v : Word) (n : Nat), memLen m a = some n → o.toNat < n →
    (∃ m', memWrite m a o v = .ok m') ∧ ∃ w, memRead m a o = .ok w)

/-- 20_memory.md R37: for every draw behind the choice (log 3), an allocation answers a non-zero inactive address and an
all-zero array there, every other array unchanged; it fails exactly when every non-zero address is active, the spec's
decision D7 (log 24). -/
def Obligations.AllocationIsFreshForEveryDraw : Prop :=
  ∀ (m : Memory) (d n : Word), m.wf →
    (∀ a m', memAlloc m d n = .ok (a, m') →
      a ≠ 0#32 ∧ memPresent m a = false ∧ memLen m' a = some n.toNat ∧
        (∀ o : Word, o.toNat < n.toNat → memRead m' a o = .ok 0#32) ∧ ∀ p, p ≠ a → SameArray m m' p) ∧
    (memAlloc m d n = .error .addressSpaceExhausted ↔ ∀ a, a ≠ 0#32 → memPresent m a = true) ∧
    (∀ k, memAlloc m d n = .error k → k = .addressSpaceExhausted)

/-- 20_memory.md R37, 92 D6: the choice is open; every non-zero inactive address is the answer for some draw (log 3). -/
def Obligations.EveryFreeAddressCanBeChosen : Prop :=
  ∀ (m : Memory) (a n : Word), a ≠ 0#32 → memPresent m a = false → ∃ d m', memAlloc m d n = .ok (a, m')

/-- 20_memory.md R38. -/
def Obligations.FreedAddressIsInactive : Prop :=
  (∀ (m m' : Memory) (a : Word), m.wf → memFree m a = .ok m' →
    memPresent m' a = false ∧ (∀ p, p ≠ a → SameArray m m' p) ∧
      (∀ o, memRead m' a o = .error .unallocatedAddress) ∧
      (∀ o v, memWrite m' a o v = .error .unallocatedAddress) ∧ memFree m' a = .error .unallocatedAddress ∧
      (a ≠ 0#32 → ∀ n, ∃ d m'', memAlloc m' d n = .ok (a, m''))) ∧
  (∀ (m : Memory) (a : Word), memPresent m a = false → memFree m a = .error .unallocatedAddress) ∧
  (∀ (m : Memory) (a : Word), memPresent m a = true → ∃ m', memFree m a = .ok m')

/-- 20_memory.md R39: array 0 becomes an independent copy; a later write to either leaves the other alone; copying array 0
onto itself changes nothing, which the spec marks as derived. -/
def Obligations.DuplicateIsIndependent : Prop :=
  (∀ (m m' : Memory) (a : Word), m.wf → memDupTo0 m a = .ok m' →
    memLen m' 0#32 = memLen m a ∧ (∀ o, memRead m' 0#32 o = memRead m a o) ∧
      (∀ p, p ≠ 0#32 → SameArray m m' p) ∧ (a = 0#32 → m' = m) ∧
      (a ≠ 0#32 → ∀ o v m'', memWrite m' a o v = .ok m'' → SameArray m' m'' 0#32) ∧
      (a ≠ 0#32 → ∀ o v m'', memWrite m' 0#32 o v = .ok m'' → SameArray m' m'' a)) ∧
  (∀ (m : Memory) (a : Word), memPresent m a = false → memDupTo0 m a = .error .unallocatedAddress) ∧
  (∀ (m : Memory) (a : Word), memPresent m a = true → ∃ m', memDupTo0 m a = .ok m')

/-- 20_memory.md R40, the spec's decision D5 (log 20): the explicit-address allocation entry and its two faults. -/
def Obligations.ExplicitAllocationFaults : Prop :=
  (∀ (m : Memory) (n : Word), memAllocAt m 0#32 n = .error .zeroAddressAllocation) ∧
  (∀ (m : Memory) (a n : Word), a ≠ 0#32 → memPresent m a = true →
    memAllocAt m a n = .error .reallocationOfActiveAddress) ∧
  (∀ (m : Memory) (a n : Word), a ≠ 0#32 → memPresent m a = false →
    ∃ m', memAllocAt m a n = .ok m' ∧ memLen m' a = some n.toNat ∧
      (∀ o : Word, o.toNat < n.toNat → memRead m' a o = .ok 0#32) ∧ ∀ p, p ≠ a → SameArray m m' p) ∧
  (∀ (m : Memory) (d n : Word), m.wf → ∀ a m', memAlloc m d n = .ok (a, m') → memAllocAt m a n = .ok m')
end

