-- ==== Sys2Proof/Laws/Assoc.lean ====
section
/-! SUPPORT. Lists of (key, value) pairs with rising keys: reading after a change, and that every change keeps the keys
rising. -/

namespace Sys2Proof.Machine

variable {α : Type}

/-- What is read is listed. -/
theorem assocGet_mem {k : Nat} {v : α} {l : List (Nat × α)} (h : assocGet k l = some v) : (k, v) ∈ l := by
  induction l with
  | nil => simp [assocGet] at h
  | cons p t ih =>
    obtain ⟨a, x⟩ := p
    rw [assocGet] at h
    split at h
    · next e => cases h; simp [e]
    · exact List.mem_cons_of_mem _ (ih h)

/-- Where every listed key is above `k`, nothing is listed under `k`. -/
theorem assocGet_of_above {k : Nat} {l : List (Nat × α)} (h : ∀ p ∈ l, k < p.1) : assocGet k l = none := by
  induction l with
  | nil => rfl
  | cons p t ih =>
    have hp := h p (by simp)
    rw [assocGet, if_neg (by omega)]
    exact ih fun q hq => h q (by simp [hq])

/-- With rising keys, what is listed is what is read. -/
theorem assocGet_of_mem {k : Nat} {v : α} {l : List (Nat × α)} (hr : Rising l) (h : (k, v) ∈ l) :
    assocGet k l = some v := by
  induction l with
  | nil => simp at h
  | cons p t ih =>
    obtain ⟨a, x⟩ := p
    rw [Rising, List.pairwise_cons] at hr
    rcases List.mem_cons.mp h with e | e
    · cases e; simp [assocGet]
    · have := hr.1 _ e
      rw [assocGet, if_neg (by simp at this; omega)]
      exact ih hr.2 e

theorem assocGet_put (k j : Nat) (v : α) (l : List (Nat × α)) :
    assocGet j (assocPut k v l) = if k = j then some v else assocGet j l := by
  induction l with
  | nil => simp [assocPut, assocGet]
  | cons p t ih =>
    obtain ⟨a, x⟩ := p
    rw [assocPut]
    split
    · simp [assocGet]
    · split
      · next e => subst e; simp only [assocGet]; split <;> simp [*]
      · next e =>
        simp only [assocGet, ih]
        by_cases ha : a = j
        · subst ha; simp [Ne.symm e]
        · simp [ha]

theorem assocGet_del (k j : Nat) (l : List (Nat × α)) (hr : Rising l) :
    assocGet j (assocDel k l) = if k = j then none else assocGet j l := by
  induction l with
  | nil => simp [assocDel, assocGet]
  | cons p t ih =>
    obtain ⟨a, x⟩ := p
    rw [Rising, List.pairwise_cons] at hr
    rw [assocDel]
    split
    · next e =>
      subst e
      by_cases hj : a = j
      · subst hj; simp [assocGet_of_above hr.1]
      · simp [assocGet, hj]
    · next e =>
      simp only [assocGet, ih hr.2]
      by_cases ha : a = j
      · subst ha; simp [Ne.symm e]
      · simp [ha]

/-- What is listed after a put was put, or was listed before. -/
theorem mem_assocPut {k : Nat} {v : α} {l : List (Nat × α)} {p : Nat × α} (h : p ∈ assocPut k v l) :
    p = (k, v) ∨ p ∈ l := by
  induction l with
  | nil => simpa [assocPut] using h
  | cons q t ih =>
    obtain ⟨a, x⟩ := q
    rw [assocPut] at h
    split at h
    · simpa using h
    · split at h
      · rcases List.mem_cons.mp h with e | e
        · exact .inl e
        · exact .inr (by simp [e])
      · rcases List.mem_cons.mp h with e | e
        · exact .inr (by simp [e])
        · rcases ih e with e | e
          · exact .inl e
          · exact .inr (by simp [e])

/-- What is listed after a deletion was listed before. -/
theorem mem_assocDel {k : Nat} {l : List (Nat × α)} {p : Nat × α} (h : p ∈ assocDel k l) : p ∈ l := by
  induction l with
  | nil => simp [assocDel] at h
  | cons q t ih =>
    obtain ⟨a, x⟩ := q
    rw [assocDel] at h
    split at h
    · simp [h]
    · rcases List.mem_cons.mp h with e | e
      · simp [e]
      · simp [ih e]

theorem rising_put (k : Nat) (v : α) {l : List (Nat × α)} (hr : Rising l) : Rising (assocPut k v l) := by
  induction l with
  | nil => simp [assocPut]
  | cons p t ih =>
    obtain ⟨a, x⟩ := p
    have hc := List.pairwise_cons.mp hr
    rw [assocPut]
    split
    · next e =>
      refine List.pairwise_cons.mpr ⟨fun q hq => ?_, hr⟩
      rcases List.mem_cons.mp hq with e' | e'
      · simp [e', e]
      · exact Nat.lt_trans e (hc.1 q e')
    · split
      · next e => subst e; exact List.pairwise_cons.mpr ⟨hc.1, hc.2⟩
      · next h1 h2 =>
        refine List.pairwise_cons.mpr ⟨fun q hq => ?_, ih hc.2⟩
        rcases mem_assocPut hq with e' | e'
        · subst e'; simp; omega
        · exact hc.1 q e'

theorem rising_del (k : Nat) {l : List (Nat × α)} (hr : Rising l) : Rising (assocDel k l) := by
  induction l with
  | nil => simp [assocDel]
  | cons p t ih =>
    obtain ⟨a, x⟩ := p
    have hc := List.pairwise_cons.mp hr
    rw [assocDel]
    split
    · exact hc.2
    · exact List.pairwise_cons.mpr ⟨fun q hq => hc.1 q (mem_assocDel hq), ih hc.2⟩

/-- The least unlisted number from `k` on is at least `k`. -/
theorem le_firstFree (k : Nat) (l : List (Nat × α)) : k ≤ firstFree k l := by
  induction l generalizing k with
  | nil => exact Nat.le_refl k
  | cons p t ih =>
    obtain ⟨a, x⟩ := p
    simp only [firstFree]
    split
    · exact ih k
    · split
      · exact Nat.le_trans (Nat.le_succ k) (ih (k + 1))
      · exact Nat.le_refl k

/-- It is not listed, the keys rising. -/
theorem assocGet_firstFree (k : Nat) {l : List (Nat × α)} (hr : Rising l) : assocGet (firstFree k l) l = none := by
  induction l generalizing k with
  | nil => rfl
  | cons p t ih =>
    obtain ⟨a, x⟩ := p
    have hc := List.pairwise_cons.mp hr
    simp only [firstFree]
    split
    · next e => rw [assocGet, if_neg (by have := le_firstFree k t; omega)]; exact ih k hc.2
    · split
      · rw [assocGet, if_neg (by have := le_firstFree (k + 1) t; omega)]; exact ih (k + 1) hc.2
      · next h1 h2 =>
        rw [assocGet, if_neg h2]
        exact assocGet_of_above fun q hq => by have := hc.1 q hq; simp at this; omega

/-- Every number from `k` up to it is listed. -/
theorem assocGet_below_firstFree (k j : Nat) (l : List (Nat × α)) (h1 : k ≤ j) (h2 : j < firstFree k l) :
    (assocGet j l).isSome = true := by
  induction l generalizing k with
  | nil => simp [firstFree] at h2; omega
  | cons p t ih =>
    obtain ⟨a, x⟩ := p
    simp only [firstFree] at h2
    rw [assocGet]
    split
    · rfl
    · next hne =>
      split at h2
      · exact ih k h1 h2
      · split at h2
        · exact ih (k + 1) (by omega) h2
        · omega

end Sys2Proof.Machine
end

