-- ==== Sys2Proof/Laws/Decode.lean ====
section
/-! SUPPORT. The laws of bit fields: what each field of an encoded word reads as, and the decoder by operator code. -/

namespace Sys2Proof

theorem bits_lt (w : Word) (hi lo : Nat) : bits w hi lo < 2 ^ (hi - lo + 1) := Nat.mod_lt _ (Nat.two_pow_pos _)

/-- The decoder by operator code: the instruction is the opcode map's at the word's operator code. -/
theorem decode_eq (w : Word) : decode w = match bits w 31 28 with
    | 0 => .cmov (selector w 6) (selector w 3) (selector w 0)
    | 1 => .index (selector w 6) (selector w 3) (selector w 0)
    | 2 => .amend (selector w 6) (selector w 3) (selector w 0)
    | 3 => .add (selector w 6) (selector w 3) (selector w 0)
    | 4 => .mul (selector w 6) (selector w 3) (selector w 0)
    | 5 => .div (selector w 6) (selector w 3) (selector w 0)
    | 6 => .nand (selector w 6) (selector w 3) (selector w 0)
    | 7 => .halt
    | 8 => .alloc (selector w 3) (selector w 0)
    | 9 => .abandon (selector w 0)
    | 10 => .out (selector w 0)
    | 11 => .inp (selector w 0)
    | 12 => .loadprog (selector w 3) (selector w 0)
    | 13 => .ortho (selector w 25) (immediate w)
    | 14 => .illegal14
    | _ => .illegal15 := rfl

/-- A word built as `encodeS` builds it has the operator code and the selectors it was built from, and zeros between. -/
theorem bits_encodeS {op : Nat} (hop : op < 16) (a b c : Reg) :
    bits (encodeS op a b c) 31 28 = op ∧ bits (encodeS op a b c) 27 9 = 0 ∧ bits (encodeS op a b c) 8 6 = a.val ∧
      bits (encodeS op a b c) 5 3 = b.val ∧ bits (encodeS op a b c) 2 0 = c.val := by
  have ha := a.isLt
  have hb := b.isLt
  have hc := c.isLt
  simp only [bits, encodeS, BitVec.toNat_ofNat]
  refine ⟨?_, ?_, ?_, ?_, ?_⟩ <;> omega

/-- A word built as `encodeI` builds it has operator code 13 and the selector and immediate it was built from. -/
theorem bits_encodeI (a : Reg) (imm : Imm) :
    bits (encodeI a imm) 31 28 = 13 ∧ bits (encodeI a imm) 27 25 = a.val ∧ bits (encodeI a imm) 24 0 = imm.toNat := by
  have ha := a.isLt
  have hi := imm.isLt
  simp only [bits, encodeI, BitVec.toNat_ofNat]
  refine ⟨?_, ?_, ?_⟩ <;> omega

end Sys2Proof
end

