-- ==== Sys2Proof/Laws/Memory.lean ====
section
/-! SUPPORT. The laws of arrays and of the array store: reading after a change, the canonical form kept by every
operation, and what the choice of a fresh address can answer. -/

namespace Sys2Proof.Machine

/-! ### One array -/

@[simp] theorem WordArray.len_set (x : WordArray) (o : Nat) (v : Word) : (x.set o v).len = x.len := rfl
@[simp] theorem WordArray.len_zeros (n : Nat) : (WordArray.zeros n).len = n := rfl
@[simp] theorem WordArray.get_zeros (n o : Nat) : (WordArray.zeros n).get o = 0#32 := rfl
@[simp] theorem WordArray.len_ofList (p : List Word) : (WordArray.ofList p).len = p.length := rfl

theorem WordArray.get_set {x : WordArray} (hr : Rising x.cells) (o j : Nat) (v : Word) :
    (x.set o v).get j = if o = j then v else x.get j := by
  unfold WordArray.set WordArray.get
  by_cases hv : v = 0#32
  · subst hv; simp only [if_true, assocGet_del o j x.cells hr]; split <;> rfl
  · simp only [if_neg hv, assocGet_put]; split <;> rfl

theorem WordArray.wf_set {x : WordArray} (h : x.wf) {o : Nat} (ho : o < x.len) (v : Word) : (x.set o v).wf := by
  obtain ⟨h1, h2, h3⟩ := h
  unfold WordArray.set
  by_cases hv : v = 0#32
  · simp only [if_pos hv]
    exact ⟨rising_del o h1, fun p hp => h2 p (mem_assocDel hp), h3⟩
  · simp only [if_neg hv]
    refine ⟨rising_put o v h1, fun p hp => ?_, h3⟩
    rcases mem_assocPut hp with e | e
    · subst e; exact ⟨ho, hv⟩
    · exact h2 p e

theorem WordArray.wf_zeros {n : Nat} (h : n < 2 ^ 32) : (WordArray.zeros n).wf :=
  ⟨List.Pairwise.nil, by simp [WordArray.zeros], h⟩

/-- The listed elements of a sequence from offset `k` have offsets from `k` to below its end, and are not zero. -/
theorem mem_cellsFrom {k : Nat} {p : List Word} {q : Nat × Word} (h : q ∈ cellsFrom k p) :
    k ≤ q.1 ∧ q.1 < k + p.length ∧ q.2 ≠ 0#32 := by
  induction p generalizing k with
  | nil => simp [cellsFrom] at h
  | cons w t ih =>
    rw [cellsFrom] at h
    split at h
    · obtain ⟨h1, h2, h3⟩ := ih h; exact ⟨by omega, by simp; omega, h3⟩
    · next hw =>
      rcases List.mem_cons.mp h with e | e
      · subst e; exact ⟨Nat.le_refl k, by simp, hw⟩
      · obtain ⟨h1, h2, h3⟩ := ih e; exact ⟨by omega, by simp; omega, h3⟩

theorem rising_cellsFrom (k : Nat) (p : List Word) : Rising (cellsFrom k p) := by
  induction p generalizing k with
  | nil => exact List.Pairwise.nil
  | cons w t ih =>
    rw [cellsFrom]
    split
    · exact ih (k + 1)
    · exact List.pairwise_cons.mpr ⟨fun q hq => (mem_cellsFrom hq).1, ih (k + 1)⟩

theorem assocGet_cellsFrom (k j : Nat) (p : List Word) : (assocGet (k + j) (cellsFrom k p)).getD 0#32 = p.getD j 0#32 := by
  induction p generalizing k j with
  | nil => simp [cellsFrom, assocGet]
  | cons w t ih =>
    rw [cellsFrom]
    cases j with
    | zero =>
      split
      · next e => rw [assocGet_of_above fun q hq => by have := (mem_cellsFrom hq).1; omega]; simp [e]
      · simp [assocGet]
    | succ j =>
      have e : k + (j + 1) = (k + 1) + j := by omega
      split
      · simp only [e, ih, List.getD_cons_succ]
      · rw [assocGet, if_neg (by omega), e, ih, List.getD_cons_succ]

/-- The array of a sequence holds the sequence. -/
@[simp] theorem WordArray.get_ofList (p : List Word) (o : Nat) : (WordArray.ofList p).get o = p.getD o 0#32 := by
  simpa [WordArray.get, WordArray.ofList] using assocGet_cellsFrom 0 o p

theorem WordArray.wf_ofList {p : List Word} (h : p.length < 2 ^ 32) : (WordArray.ofList p).wf :=
  ⟨rising_cellsFrom 0 p, fun q hq => by have := mem_cellsFrom hq; exact ⟨by simp; omega, this.2.2⟩, h⟩

/-! ### The store -/

theorem memArray_memPut (m : Memory) (a b : Word) (x : WordArray) :
    memArray (memPut m a x) b = if a = b then some x else memArray m b := by
  simp [memArray, memPut, assocGet_put, BitVec.toNat_inj]

theorem memArray_del {m : Memory} (h : m.wf) (a b : Word) :
    memArray { arrays := assocDel a.toNat m.arrays } b = if a = b then none else memArray m b := by
  simp [memArray, assocGet_del _ _ _ h.1, BitVec.toNat_inj]

theorem memArray_wf {m : Memory} (h : m.wf) {a : Word} {x : WordArray} (hx : memArray m a = some x) : x.wf :=
  (h.2 _ (assocGet_mem hx)).2

theorem memPut_wf {m : Memory} (h : m.wf) (a : Word) {x : WordArray} (hx : x.wf) : (memPut m a x).wf := by
  refine ⟨rising_put _ _ h.1, fun p hp => ?_⟩
  rcases mem_assocPut hp with e | e
  · subst e; exact ⟨a.isLt, hx⟩
  · exact h.2 p e

theorem memDel_wf {m : Memory} (h : m.wf) (a : Word) : Memory.wf { arrays := assocDel a.toNat m.arrays } :=
  ⟨rising_del _ h.1, fun p hp => h.2 p (mem_assocDel hp)⟩

/-! ### Each primitive keeps the canonical form -/

theorem memWrite_wf {m m' : Memory} {a o v : Word} (h : m.wf) (e : memWrite m a o v = .ok m') : m'.wf := by
  unfold memWrite at e
  split at e
  · cases e
  · next x hx =>
    split at e
    · cases e
    · cases e; exact memPut_wf h a (WordArray.wf_set (memArray_wf h hx) (by omega) v)

theorem memAllocAt_wf {m m' : Memory} {a n : Word} (h : m.wf) (e : memAllocAt m a n = .ok m') : m'.wf := by
  unfold memAllocAt at e
  split at e
  · cases e
  · split at e
    · cases e
    · cases e; exact memPut_wf h a (WordArray.wf_zeros n.isLt)

theorem memAlloc_wf {m m' : Memory} {d n a : Word} (h : m.wf) (e : memAlloc m d n = .ok (a, m')) : m'.wf := by
  unfold memAlloc at e
  split at e
  · cases e
  · next a' _ =>
    cases h' : memAllocAt m a' n with
    | error k => simp [h', Except.map] at e
    | ok m'' => simp [h', Except.map] at e; rw [← e.2]; exact memAllocAt_wf h h'

theorem memFree_wf {m m' : Memory} {a : Word} (h : m.wf) (e : memFree m a = .ok m') : m'.wf := by
  unfold memFree at e
  split at e
  · cases e
  · cases e; exact memDel_wf h a

theorem memDupTo0_wf {m m' : Memory} {a : Word} (h : m.wf) (e : memDupTo0 m a = .ok m') : m'.wf := by
  unfold memDupTo0 at e
  split at e
  · cases e
  · next x hx => cases e; exact memPut_wf h _ (memArray_wf h hx)

theorem placeWord_wf {m : Memory} (h : m.wf) {pc : Word} (hpc : pc.toNat + 1 < 2 ^ 32) (w : Word) :
    (placeWord m pc w).wf := by
  have hx : ((memArray m 0#32).getD (WordArray.zeros 0)).wf := by
    cases e : memArray m 0#32 with
    | none => exact WordArray.wf_zeros (by decide)
    | some x => exact memArray_wf h e
  refine memPut_wf h _ (WordArray.wf_set ?_ (by simp) w)
  obtain ⟨h1, h2, h3⟩ := hx
  exact ⟨h1, fun p hp => ⟨by have := (h2 p hp).1; simp; omega, (h2 p hp).2⟩, by simp; omega⟩

/-- The store of a loaded program is canonical. -/
theorem ofProgram_mem_wf {p : List Word} (h : p.length < 2 ^ 32) :
    Memory.wf { arrays := [(0, WordArray.ofList p)] } :=
  ⟨by simp [Rising], fun q hq => by
    rw [List.mem_singleton] at hq
    subst hq
    exact ⟨Nat.two_pow_pos 32, WordArray.wf_ofList h⟩⟩

/-- The store at reset is canonical. -/
theorem reset_mem_wf : State.reset.mem.wf := by decide

/-! ### The choice of a fresh address (20_memory.md R37) -/

/-- Whatever the draw, the chosen address is not 0 and is inactive. -/
theorem chooseAddress_fresh {m : Memory} (h : m.wf) {d a : Word} (e : chooseAddress m d = some a) :
    a ≠ 0#32 ∧ memArray m a = none := by
  simp only [chooseAddress] at e
  split at e
  · next hl =>
    split at e
    · next hd =>
      cases e
      exact ⟨hd.1, by simpa [memPresent] using hd.2⟩
    · cases e
      have h1 := le_firstFree 1 m.arrays
      have ht : (BitVec.ofNat 32 (firstFree 1 m.arrays)).toNat = firstFree 1 m.arrays := by
        rw [BitVec.toNat_ofNat, Nat.mod_eq_of_lt hl]
      refine ⟨fun hz => ?_, ?_⟩
      · rw [hz] at ht; simp at ht; omega
      · unfold memArray; rw [ht]; exact assocGet_firstFree 1 h.1
  · cases e

/-- No address is chosen only where every non-zero address is active. -/
theorem chooseAddress_none {m : Memory} {d : Word} (e : chooseAddress m d = none) (a : Word) (ha : a ≠ 0#32) :
    memPresent m a = true := by
  simp only [chooseAddress] at e
  split at e
  · cases e
  · next hl =>
    refine assocGet_below_firstFree 1 a.toNat m.arrays ?_ (by have := a.isLt; omega)
    have : a.toNat ≠ 0 := fun hz => ha (BitVec.eq_of_toNat_eq hz)
    omega

/-- A draw that is a non-zero inactive address is the address chosen. -/
theorem chooseAddress_draw {m : Memory} {d : Word} (hd : d ≠ 0#32) (hi : memPresent m d = false) :
    chooseAddress m d = some d := by
  cases e : chooseAddress m d with
  | none => rw [chooseAddress_none e d hd] at hi; cases hi
  | some a =>
    simp only [chooseAddress] at e
    split at e
    · simp [hd, hi] at e; rw [e]
    · cases e

/-- What an allocation answers, whatever the draw: a fresh address with the store that has a zero array there, or, where
every non-zero address is active, AddressSpaceExhausted. -/
theorem memAlloc_cases {m : Memory} (h : m.wf) (d n : Word) :
    (∃ a, a ≠ 0#32 ∧ memArray m a = none ∧ memAlloc m d n = .ok (a, memPut m a (WordArray.zeros n.toNat))) ∨
      ((∀ a, a ≠ 0#32 → memPresent m a = true) ∧ memAlloc m d n = .error .addressSpaceExhausted) := by
  unfold memAlloc
  cases e : chooseAddress m d with
  | none => exact .inr ⟨chooseAddress_none e, rfl⟩
  | some a =>
    obtain ⟨h1, h2⟩ := chooseAddress_fresh h e
    exact .inl ⟨a, h1, h2, by simp [memAllocAt, h1, memPresent, h2, Except.map]⟩

end Sys2Proof.Machine
end

