-- ==== Sys2Proof/Laws/State.lean ====
section
/-! SUPPORT. The state's small laws: one lemma per field per named update, and reading a register after writing one. -/

namespace Sys2Proof.Machine

/-! ### Registers -/

theorem readReg_writeReg (s : State) (a r : Reg) (v : Word) :
    readReg (writeReg s a v) r = if a = r then v else readReg s r := by
  simp [readReg, writeReg, Vector.getElem_set, Fin.ext_iff]

@[simp] theorem readReg_writeReg_self (s : State) (a : Reg) (v : Word) : readReg (writeReg s a v) a = v := by
  simp [readReg_writeReg]

theorem readReg_writeReg_ne (s : State) {a r : Reg} (v : Word) (h : r ≠ a) :
    readReg (writeReg s a v) r = readReg s r := by
  simp [readReg_writeReg, Ne.symm h]

/-- Two states with the same value in every register have the same register file. -/
theorem regs_ext {s t : State} (h : ∀ r, readReg s r = readReg t r) : s.regs = t.regs := by
  apply Vector.ext
  intro i hi
  exact h ⟨i, hi⟩

@[simp] theorem writeReg_pc (s : State) (a : Reg) (v : Word) : (writeReg s a v).pc = s.pc := rfl
@[simp] theorem writeReg_engine (s : State) (a : Reg) (v : Word) : (writeReg s a v).engine = s.engine := rfl
@[simp] theorem writeReg_mem (s : State) (a : Reg) (v : Word) : (writeReg s a v).mem = s.mem := rfl
@[simp] theorem writeReg_allocator (s : State) (a : Reg) (v : Word) : (writeReg s a v).allocator = s.allocator := rfl
@[simp] theorem writeReg_output (s : State) (a : Reg) (v : Word) : (writeReg s a v).output = s.output := rfl
@[simp] theorem writeReg_inPos (s : State) (a : Reg) (v : Word) : (writeReg s a v).inPos = s.inPos := rfl
@[simp] theorem writeReg_script (s : State) (a : Reg) (v : Word) : (writeReg s a v).script = s.script := rfl

/-! ### Taking a fault: only the engine state changes -/

@[simp] theorem raise_regs (k : FaultKind) (s : State) : (raise k s).regs = s.regs := rfl
@[simp] theorem readReg_raise (k : FaultKind) (s : State) (r : Reg) : readReg (raise k s) r = readReg s r := rfl
@[simp] theorem raise_pc (k : FaultKind) (s : State) : (raise k s).pc = s.pc := rfl
@[simp] theorem raise_engine (k : FaultKind) (s : State) : (raise k s).engine = .failed k := rfl
@[simp] theorem raise_mem (k : FaultKind) (s : State) : (raise k s).mem = s.mem := rfl
@[simp] theorem raise_allocator (k : FaultKind) (s : State) : (raise k s).allocator = s.allocator := rfl
@[simp] theorem raise_output (k : FaultKind) (s : State) : (raise k s).output = s.output := rfl
@[simp] theorem raise_inPos (k : FaultKind) (s : State) : (raise k s).inPos = s.inPos := rfl
@[simp] theorem raise_script (k : FaultKind) (s : State) : (raise k s).script = s.script := rfl

/-! ### Halting: only the engine state changes -/

@[simp] theorem halt_regs (s : State) : (halt s).regs = s.regs := rfl
@[simp] theorem readReg_halt (s : State) (r : Reg) : readReg (halt s) r = readReg s r := rfl
@[simp] theorem halt_pc (s : State) : (halt s).pc = s.pc := rfl
@[simp] theorem halt_engine (s : State) : (halt s).engine = .halted := rfl
@[simp] theorem halt_mem (s : State) : (halt s).mem = s.mem := rfl
@[simp] theorem halt_allocator (s : State) : (halt s).allocator = s.allocator := rfl
@[simp] theorem halt_output (s : State) : (halt s).output = s.output := rfl
@[simp] theorem halt_inPos (s : State) : (halt s).inPos = s.inPos := rfl
@[simp] theorem halt_script (s : State) : (halt s).script = s.script := rfl

/-! ### The byte channel -/

@[simp] theorem outByte_regs (s : State) (b : Byte) : (outByte s b).regs = s.regs := rfl
@[simp] theorem readReg_outByte (s : State) (b : Byte) (r : Reg) : readReg (outByte s b) r = readReg s r := rfl
@[simp] theorem outByte_pc (s : State) (b : Byte) : (outByte s b).pc = s.pc := rfl
@[simp] theorem outByte_engine (s : State) (b : Byte) : (outByte s b).engine = s.engine := rfl
@[simp] theorem outByte_mem (s : State) (b : Byte) : (outByte s b).mem = s.mem := rfl
@[simp] theorem outByte_allocator (s : State) (b : Byte) : (outByte s b).allocator = s.allocator := rfl
@[simp] theorem outByte_output (s : State) (b : Byte) : (outByte s b).output = s.output ++ [b] := rfl
@[simp] theorem outByte_inPos (s : State) (b : Byte) : (outByte s b).inPos = s.inPos := rfl
@[simp] theorem outByte_script (s : State) (b : Byte) : (outByte s b).script = s.script := rfl

/-- What an input transaction answers and leaves: the scripted answer, or else the oracle's. -/
theorem inByte_eq (s : State) :
    inByte s = (s.script.head?.getD (Config.input s.inPos), { s with inPos := s.inPos + 1, script := s.script.tail }) := by
  obtain ⟨_, _, _, _, _, _, _, script⟩ := s
  cases script <;> rfl

@[simp] theorem inByte_regs (s : State) : (inByte s).2.regs = s.regs := by simp [inByte_eq]
@[simp] theorem readReg_inByte (s : State) (r : Reg) : readReg (inByte s).2 r = readReg s r := by simp [readReg]
@[simp] theorem inByte_pc (s : State) : (inByte s).2.pc = s.pc := by simp [inByte_eq]
@[simp] theorem inByte_engine (s : State) : (inByte s).2.engine = s.engine := by simp [inByte_eq]
@[simp] theorem inByte_mem (s : State) : (inByte s).2.mem = s.mem := by simp [inByte_eq]
@[simp] theorem inByte_allocator (s : State) : (inByte s).2.allocator = s.allocator := by simp [inByte_eq]
@[simp] theorem inByte_output (s : State) : (inByte s).2.output = s.output := by simp [inByte_eq]
@[simp] theorem inByte_inPos (s : State) : (inByte s).2.inPos = s.inPos + 1 := by simp [inByte_eq]
@[simp] theorem inByte_script (s : State) : (inByte s).2.script = s.script.tail := by simp [inByte_eq]

/-! ### The end-of-program check and the two ways a step ends through it -/

/-- The check changes at most the engine state, to HALTED. -/
theorem endCheck_cases (s : State) : endCheck s = s ∨ endCheck s = halt s := by
  unfold endCheck
  split
  · split
    · exact .inr rfl
    · exact .inl rfl
  · exact .inl rfl

@[simp] theorem endCheck_regs (s : State) : (endCheck s).regs = s.regs := by
  rcases endCheck_cases s with h | h <;> simp [h]
@[simp] theorem readReg_endCheck (s : State) (r : Reg) : readReg (endCheck s) r = readReg s r := by simp [readReg]
@[simp] theorem endCheck_pc (s : State) : (endCheck s).pc = s.pc := by
  rcases endCheck_cases s with h | h <;> simp [h]
@[simp] theorem endCheck_mem (s : State) : (endCheck s).mem = s.mem := by
  rcases endCheck_cases s with h | h <;> simp [h]
@[simp] theorem endCheck_allocator (s : State) : (endCheck s).allocator = s.allocator := by
  rcases endCheck_cases s with h | h <;> simp [h]
@[simp] theorem endCheck_output (s : State) : (endCheck s).output = s.output := by
  rcases endCheck_cases s with h | h <;> simp [h]
@[simp] theorem endCheck_inPos (s : State) : (endCheck s).inPos = s.inPos := by
  rcases endCheck_cases s with h | h <;> simp [h]
@[simp] theorem endCheck_script (s : State) : (endCheck s).script = s.script := by
  rcases endCheck_cases s with h | h <;> simp [h]

/-- The check halts a machine whose finger is not below the length of array 0. -/
theorem endCheck_engine_past {s : State} {n : Nat} (h : memLen s.mem 0#32 = some n) (hn : n ≤ s.pc.toNat) :
    (endCheck s).engine = .halted := by
  simp [endCheck, h, hn]

/-- The check leaves a machine whose finger is below the length of array 0, or that has no array 0. -/
theorem endCheck_of_inside {s : State} (h : ∀ n, memLen s.mem 0#32 = some n → s.pc.toNat < n) : endCheck s = s := by
  unfold endCheck
  split
  · next n hn => simp [Nat.not_le.mpr (h n hn)]
  · rfl

@[simp] theorem readReg_advance (s : State) (r : Reg) : readReg (advance s) r = readReg s r := by simp [readReg, advance]
@[simp] theorem advance_regs (s : State) : (advance s).regs = s.regs := by simp [advance]
@[simp] theorem advance_pc (s : State) : (advance s).pc = s.pc + 1#32 := by simp [advance]
@[simp] theorem advance_mem (s : State) : (advance s).mem = s.mem := by simp [advance]
@[simp] theorem advance_allocator (s : State) : (advance s).allocator = s.allocator := by simp [advance]
@[simp] theorem advance_output (s : State) : (advance s).output = s.output := by simp [advance]
@[simp] theorem advance_inPos (s : State) : (advance s).inPos = s.inPos := by simp [advance]
@[simp] theorem advance_script (s : State) : (advance s).script = s.script := by simp [advance]

@[simp] theorem readReg_redirect (s : State) (p : Word) (r : Reg) : readReg (redirect s p) r = readReg s r := by
  simp [readReg, redirect]
@[simp] theorem redirect_regs (s : State) (p : Word) : (redirect s p).regs = s.regs := by simp [redirect]
@[simp] theorem redirect_pc (s : State) (p : Word) : (redirect s p).pc = p := by simp [redirect]
@[simp] theorem redirect_mem (s : State) (p : Word) : (redirect s p).mem = s.mem := by simp [redirect]
@[simp] theorem redirect_allocator (s : State) (p : Word) : (redirect s p).allocator = s.allocator := by simp [redirect]
@[simp] theorem redirect_output (s : State) (p : Word) : (redirect s p).output = s.output := by simp [redirect]
@[simp] theorem redirect_inPos (s : State) (p : Word) : (redirect s p).inPos = s.inPos := by simp [redirect]
@[simp] theorem redirect_script (s : State) (p : Word) : (redirect s p).script = s.script := by simp [redirect]

end Sys2Proof.Machine
end

