-- ==== Sys2Proof/Laws/Ops.lean ====
section
/-! SUPPORT. One lemma per shared operation that says once everything it can do, for proofs to cite instead of
unfolding it. -/

namespace Sys2Proof.Machine

open Sys2Proof.Safety

/-- `attempt` always answers a next state: the fault taken, or the instruction gone on. -/
theorem attempt_next {α : Type} {r : Except FaultKind α} {s t : State} {go : α → State}
    (h : attempt r s go = .next t) : (∃ k, r = .error k ∧ t = raise k s) ∨ ∃ v, r = .ok v ∧ t = go v := by
  cases r with
  | error k => cases h; exact .inl ⟨k, rfl, rfl⟩
  | ok v => cases h; exact .inr ⟨v, rfl, rfl⟩

@[simp] theorem attempt_ok {α : Type} (v : α) (s : State) (go : α → State) : attempt (.ok v) s go = .next (go v) := rfl
@[simp] theorem attempt_error {α : Type} (k : FaultKind) (s : State) (go : α → State) :
    attempt (.error k) s go = .next (raise k s) := rfl

/-! ### The ALU instructions: ADD, MUL and NAND never fail, DIV fails at divisor 0 -/

theorem exec_add (a b c : Reg) (s : State) :
    exec (.add a b c) s = .next (advance (writeReg s a (trunc32 ((readReg s b).toNat + (readReg s c).toNat)))) := rfl
theorem exec_mul (a b c : Reg) (s : State) :
    exec (.mul a b c) s = .next (advance (writeReg s a (trunc32 ((readReg s b).toNat * (readReg s c).toNat)))) := rfl
theorem exec_nand (a b c : Reg) (s : State) :
    exec (.nand a b c) s = .next (advance (writeReg s a (~~~(readReg s b &&& readReg s c)))) := rfl
theorem exec_div (a b c : Reg) (s : State) :
    exec (.div a b c) s = .next
      (if isNonZero (readReg s c) then advance (writeReg s a (trunc32 ((readReg s b).toNat / (readReg s c).toNat)))
      else raise .divisionByZero s) := by
  cases h : isNonZero (readReg s c) <;> simp [exec, execDiv, execAlu, aluDiv, h]

/-- `raise` is a faulted end. -/
theorem raise_fails (k : FaultKind) (s : State) : Fails k s (raise k s) :=
  ⟨rfl, fun _ => rfl, rfl, rfl, rfl, rfl, rfl, rfl⟩

/-- The end-of-program check leaves the engine state as `EngineChecked` says. -/
theorem endCheck_checked (s : State) : EngineChecked s (endCheck s) := by
  refine ⟨fun n hn hle => ?_, fun h => ?_⟩
  · exact endCheck_engine_past (by simpa using hn) (by simpa using hle)
  · rw [endCheck_of_inside (by simpa using h)]

/-- `advance` is a normal end, seen from any state with the finger and the engine state it started from. -/
theorem advance_endsNormal {s u : State} (hpc : u.pc = s.pc) (he : u.engine = s.engine) : EndsNormal s (advance u) := by
  have h := endCheck_checked { u with pc := u.pc + 1#32 }
  refine ⟨by simp [hpc], h.1, fun hin => ?_⟩
  rw [← he]
  exact h.2 hin

/-- `redirect` sets the finger and makes the end-of-program check. -/
theorem redirect_checked {s u : State} (he : u.engine = s.engine) (p : Word) : EngineChecked s (redirect u p) := by
  have h := endCheck_checked { u with pc := p }
  refine ⟨h.1, fun hin => ?_⟩
  rw [← he]
  exact h.2 hin

/-- After the end-of-program check a running machine's finger is inside array 0. -/
theorem endCheck_fingerInside (s : State) : FingerInside (endCheck s) := by
  intro hr n hn
  by_contra hle
  rw [(endCheck_checked s).1 n hn (by omega)] at hr
  cases hr

/-- What the fetch answers (40_cycle_and_control.md R80, R81). -/
theorem fetch_cases (s : State) :
    (s.engine ≠ .running ∧ fetch s = .error s) ∨
      (s.engine = .running ∧ memArray s.mem 0#32 = none ∧ fetch s = .error (raise .programAbsent s)) ∨
      (∃ x, s.engine = .running ∧ memArray s.mem 0#32 = some x ∧ x.len ≤ s.pc.toNat ∧ fetch s = .error (halt s)) ∨
      ∃ x, s.engine = .running ∧ memArray s.mem 0#32 = some x ∧ s.pc.toNat < x.len ∧
        fetch s = .ok (x.get s.pc.toNat) := by
  unfold fetch
  cases he : s.engine with
  | halted => simp
  | failed k => simp
  | running =>
    cases hx : memArray s.mem 0#32 with
    | none => simp
    | some x =>
      by_cases hl : x.len ≤ s.pc.toNat
      · simp [hl]
      · simp [hl]; omega

/-- What a step can do: nothing in HALTED and FAILED, ProgramAbsent, the halt of a finger past the end, or the meaning of the
instruction fetched. -/
theorem step_cases {s t : State} (h : step s = .next t) :
    (s.engine ≠ .running ∧ t = s) ∨
      (s.engine = .running ∧ memArray s.mem 0#32 = none ∧ t = raise .programAbsent s) ∨
      (∃ x, s.engine = .running ∧ memArray s.mem 0#32 = some x ∧ x.len ≤ s.pc.toNat ∧ t = halt s) ∨
      ∃ x, s.engine = .running ∧ memArray s.mem 0#32 = some x ∧ s.pc.toNat < x.len ∧
        exec (decode (x.get s.pc.toNat)) s = .next t := by
  rcases fetch_cases s with ⟨h1, h2⟩ | ⟨h1, h2, h3⟩ | ⟨x, h1, h2, h3, h4⟩ | ⟨x, h1, h2, h3, h4⟩
  · simp only [step, h2] at h; cases h; exact .inl ⟨h1, rfl⟩
  · simp only [step, h3] at h; cases h; exact .inr (.inl ⟨h1, h2, rfl⟩)
  · simp only [step, h4] at h; cases h; exact .inr (.inr (.inl ⟨x, h1, h2, h3, rfl⟩))
  · simp only [step, h4] at h; exact .inr (.inr (.inr ⟨x, h1, h2, h3, h⟩))

/-- LOADPROG by its source array. -/
theorem execLoadprog_eq (b c : Reg) (s : State) :
    execLoadprog b c s = match memArray s.mem (readReg s b) with
      | none => .next (raise .unallocatedAddress s)
      | some x =>
        if memPresent s.mem 0#32 then .next (redirect { s with mem := memPut s.mem 0#32 x } (readReg s c))
        else .fault .dupWithoutProgram := by
  unfold execLoadprog memDupTo0
  cases memArray s.mem (readReg s b) <;> rfl

/-- What LOADPROG answers as a next state: the fault taken, or array 0 replaced and the finger set. -/
theorem execLoadprog_next {b c : Reg} {s t : State} (h : execLoadprog b c s = .next t) :
    (memArray s.mem (readReg s b) = none ∧ t = raise .unallocatedAddress s) ∨
      ∃ x, memArray s.mem (readReg s b) = some x ∧ memPresent s.mem 0#32 = true ∧
        t = redirect { s with mem := memPut s.mem 0#32 x } (readReg s c) := by
  rw [execLoadprog_eq] at h
  cases hx : memArray s.mem (readReg s b) with
  | none => rw [hx] at h; cases h; exact .inl ⟨rfl, rfl⟩
  | some x =>
    simp only [hx] at h
    split at h
    · next hp => cases h; exact .inr ⟨x, rfl, hp, rfl⟩
    · cases h

/-- The four ways an operation ends (40_cycle_and_control.md R83): every next state of exec is a fault taken, the halt, a
normal end, or the redirected end of LOADPROG. -/
theorem exec_cases {i : Instr} {s t : State} (h : exec i s = .next t) :
    (∃ k, t = raise k s) ∨ (i = .halt ∧ t = halt s) ∨
      (∃ u, u.pc = s.pc ∧ u.engine = s.engine ∧ t = advance u) ∨
      (∃ b c x, i = .loadprog b c ∧ memArray s.mem (readReg s b) = some x ∧
        t = redirect { s with mem := memPut s.mem 0#32 x } (readReg s c)) := by
  have ofAttempt : ∀ {α : Type} {r : Except FaultKind α} {go : α → State},
      attempt r s (fun v => advance (go v)) = .next t → (∀ v, (go v).pc = s.pc ∧ (go v).engine = s.engine) →
      (∃ k, t = raise k s) ∨ (i = .halt ∧ t = halt s) ∨
        (∃ u, u.pc = s.pc ∧ u.engine = s.engine ∧ t = advance u) ∨
        (∃ b c x, i = .loadprog b c ∧ memArray s.mem (readReg s b) = some x ∧
          t = redirect { s with mem := memPut s.mem 0#32 x } (readReg s c)) := by
    intro α r go ha hgo
    rcases attempt_next ha with ⟨k, _, e⟩ | ⟨v, _, e⟩
    · exact .inl ⟨k, e⟩
    · exact .inr (.inr (.inl ⟨go v, (hgo v).1, (hgo v).2, e⟩))
  cases i with
  | cmov a b c =>
    cases h
    refine .inr (.inr (.inl ⟨_, ?_, ?_, rfl⟩)) <;> split <;> simp
  | index a b c => exact ofAttempt h fun v => ⟨by simp, by simp⟩
  | amend a b c => exact ofAttempt h fun v => ⟨rfl, rfl⟩
  | add a b c => cases h; exact .inr (.inr (.inl ⟨_, by simp, by simp, rfl⟩))
  | mul a b c => cases h; exact .inr (.inr (.inl ⟨_, by simp, by simp, rfl⟩))
  | div a b c => exact ofAttempt h fun v => ⟨by simp, by simp⟩
  | nand a b c => cases h; exact .inr (.inr (.inl ⟨_, by simp, by simp, rfl⟩))
  | halt => cases h; exact .inr (.inl ⟨rfl, rfl⟩)
  | alloc b c => exact ofAttempt h fun v => ⟨by simp, by simp⟩
  | abandon c => exact ofAttempt h fun v => ⟨rfl, rfl⟩
  | out c =>
    simp only [exec, execOut] at h
    split at h
    · cases h; exact .inr (.inr (.inl ⟨_, by simp, by simp, rfl⟩))
    · cases h; exact .inl ⟨_, rfl⟩
  | inp c => cases h; exact .inr (.inr (.inl ⟨_, by simp, by simp, rfl⟩))
  | loadprog b c =>
    rcases execLoadprog_next h with ⟨_, e⟩ | ⟨x, hx, _, e⟩
    · exact .inl ⟨_, e⟩
    · exact .inr (.inr (.inr ⟨b, c, x, rfl, hx, e⟩))
  | ortho a imm => cases h; exact .inr (.inr (.inl ⟨_, by simp, by simp, rfl⟩))
  | illegal14 => cases h; exact .inl ⟨_, rfl⟩
  | illegal15 => cases h; exact .inl ⟨_, rfl⟩

/-! ### Runs -/

/-- A run of one step more, of any machine behind the host's interface. -/
theorem run_succ (M : Host.Core) (n : Nat) (s : M.State) :
    Host.Core.run M (n + 1) s = match M.step s with
      | .next t => Host.Core.run M n t
      | .fault r => .fault r
      | .refused r => .refused r := by
  cases h : M.step s <;> simp [Host.Core.run, h]

/-- A run goes on from the state its first step answers. -/
theorem run_next {n : Nat} {s t : State} (h : step s = .next t) :
    Host.Core.run core (n + 1) s = Host.Core.run core n t := by
  have h' : core.step s = .next t := h
  rw [run_succ core n s, h']

/-- A run that ends in a state took a first step, and ran on from there. -/
theorem run_cases {n : Nat} {s t : State} (h : Host.Core.run core (n + 1) s = .next t) :
    ∃ u, step s = .next u ∧ Host.Core.run core n u = .next t := by
  rw [run_succ core n s] at h
  cases h' : core.step s with
  | next u => exact ⟨u, h', by rw [h'] at h; exact h⟩
  | fault r => rw [h'] at h; cases h
  | refused r => rw [h'] at h; cases h

end Sys2Proof.Machine
end

