-- ==== Sys2Proof/Laws/PerInstr.lean ====
section
/-! SUPPORT. Families of statements about every instruction as syntax, one lemma per constructor. -/

namespace Sys2Proof.Laws.Canonical

/-- The canonical word of an instruction has the instruction's operator code in bits 31 to 28 (30_encoding.md R61), and,
where its layout is the standard one, zeros in the ignored bits 27 to 9 (R64, R74). -/
def Statement (i : Instr) : Prop :=
  bits (encode i) 31 28 = i.opcode ∧ (i.opcode ≠ 13 → bits (encode i) 27 9 = 0)

/-- A word of the standard layout meets the statement. -/
theorem of_encodeS {op : Nat} (hop : op < 16) (a b c : Reg) :
    bits (encodeS op a b c) 31 28 = op ∧ (op ≠ 13 → bits (encodeS op a b c) 27 9 = 0) :=
  ⟨(bits_encodeS hop a b c).1, fun _ => (bits_encodeS hop a b c).2.1⟩

theorem cmov (a b c : Reg) : Statement (.cmov a b c) := of_encodeS (by decide) a b c
theorem index (a b c : Reg) : Statement (.index a b c) := of_encodeS (by decide) a b c
theorem amend (a b c : Reg) : Statement (.amend a b c) := of_encodeS (by decide) a b c
theorem add (a b c : Reg) : Statement (.add a b c) := of_encodeS (by decide) a b c
theorem mul (a b c : Reg) : Statement (.mul a b c) := of_encodeS (by decide) a b c
theorem div (a b c : Reg) : Statement (.div a b c) := of_encodeS (by decide) a b c
theorem nand (a b c : Reg) : Statement (.nand a b c) := of_encodeS (by decide) a b c
theorem halt : Statement .halt := of_encodeS (by decide) 0 0 0
theorem alloc (b c : Reg) : Statement (.alloc b c) := of_encodeS (by decide) 0 b c
theorem abandon (c : Reg) : Statement (.abandon c) := of_encodeS (by decide) 0 0 c
theorem out (c : Reg) : Statement (.out c) := of_encodeS (by decide) 0 0 c
theorem inp (c : Reg) : Statement (.inp c) := of_encodeS (by decide) 0 0 c
theorem loadprog (b c : Reg) : Statement (.loadprog b c) := of_encodeS (by decide) 0 b c
theorem ortho (a : Reg) (imm : Imm) : Statement (.ortho a imm) :=
  ⟨(bits_encodeI a imm).1, fun h => absurd rfl h⟩
theorem illegal14 : Statement .illegal14 := of_encodeS (by decide) 0 0 0
theorem illegal15 : Statement .illegal15 := of_encodeS (by decide) 0 0 0

end Sys2Proof.Laws.Canonical
end

