-- ==== Sys2Proof/Tests/Slice0.lean ====
section
/-! SUPPORT. The model's own tests: ill-formed terms refused, words decoded, one or two single steps per instruction, and
for every obligation with hypotheses a concrete state and operands that meet them together. Expected results are those of
95_test_vectors.md or computed by hand from the rule named. -/

namespace Sys2Proof.Tests

open Sys2Proof.Machine Sys2Proof.Safety

/-! ### Helpers -/

/-- The state an outcome answers. -/
def stateOf : Host.Outcome State Fault Refusal → Option State
  | .next t => some t
  | .fault _ => none
  | .refused _ => none

/-- A machine loaded with a program. -/
def prog (p : List Word) : State := State.ofProgram p

/-- `s` with a register set. -/
def reg (s : State) (r : Reg) (v : Word) : State := writeReg s r v

/-- `s` with an array at an address. -/
def arr (s : State) (a : Word) (p : List Word) : State := { s with mem := memPut s.mem a (WordArray.ofList p) }

/-- `s` with no array active, running. -/
def bare (s : State) : State := { s with engine := .running, mem := { arrays := [] } }

/-- A machine with a long enough program and a three-word array at address 7. -/
def base : State := arr (prog [0x70000000#32, 0x70000000#32, 0x70000000#32]) 7#32 [0#32, 0x41#32, 0#32]

/-- What register `r` holds after instruction `i` in state `s`. -/
def regAfter (i : Instr) (s : State) (r : Reg) : Option Word := (stateOf (exec i s)).map (readReg · r)

/-- The engine state after instruction `i` in state `s`. -/
def engineAfter (i : Instr) (s : State) : Option Engine := (stateOf (exec i s)).map State.engine

/-- The finger after instruction `i` in state `s`. -/
def pcAfter (i : Instr) (s : State) : Option Word := (stateOf (exec i s)).map State.pc

/-! ### Ill-formed terms are refused -/

theorem test_wf_refuses_illegal14 : Instr.wellFormed .illegal14 = false := by decide
theorem test_wf_refuses_illegal15 : Instr.wellFormed .illegal15 = false := by decide
theorem test_platter_refuses_legal_code14 : Platter.wellFormed ⟨14, true, .standard, 0, 0, 0, 0, 0⟩ = false := by decide
theorem test_platter_refuses_illegal_code3 : Platter.wellFormed ⟨3, false, .standard, 0, 0, 0, 0, 0⟩ = false := by decide
theorem test_platter_refuses_standard_code13 : Platter.wellFormed ⟨13, true, .standard, 0, 0, 0, 0, 0⟩ = false := by
  decide
theorem test_platter_refuses_immediate_code3 : Platter.wellFormed ⟨3, true, .immediate, 0, 0, 0, 0, 0⟩ = false := by
  decide
theorem test_program_refuses_too_long : programWellFormed (List.replicate (2 ^ 32) 0#32) = false := by
  rw [programWellFormed, List.length_replicate]
  decide
theorem test_memory_refuses_unsorted : ¬ Memory.wf ⟨[(5, ⟨0, []⟩), (1, ⟨0, []⟩)]⟩ := by decide
theorem test_memory_refuses_repeated : ¬ Memory.wf ⟨[(5, ⟨0, []⟩), (5, ⟨0, []⟩)]⟩ := by decide
theorem test_memory_refuses_wide_address : ¬ Memory.wf ⟨[(4294967296, ⟨0, []⟩)]⟩ := by decide
theorem test_array_refuses_listed_zero : ¬ WordArray.wf ⟨2, [(1, 0#32)]⟩ := by decide
theorem test_array_refuses_cell_past_end : ¬ WordArray.wf ⟨2, [(2, 1#32)]⟩ := by decide
theorem test_array_refuses_unsorted : ¬ WordArray.wf ⟨9, [(2, 1#32), (1, 1#32)]⟩ := by decide
theorem test_array_refuses_too_long : ¬ WordArray.wf ⟨4294967296, []⟩ := by decide

/-! ### Decoding: words written out from the encodings (95_test_vectors.md 2.1) -/

theorem test_decode_cmov : decode 0b00000000000000000000000001010011#32 = .cmov 1 2 3 := by decide
theorem test_decode_index : decode 0b00010000000000000000000001010011#32 = .index 1 2 3 := by decide
theorem test_decode_amend : decode 0b00100000000000000000000001010011#32 = .amend 1 2 3 := by decide
theorem test_decode_add : decode 0b00110000000000000000000001010011#32 = .add 1 2 3 := by decide
theorem test_decode_add_junk_bits : decode 0x3FFFFE0A#32 = .add 0 1 2 := by decide
theorem test_decode_mul : decode 0b01000000000000000000000001010011#32 = .mul 1 2 3 := by decide
theorem test_decode_div : decode 0b01010000000000000000000001010011#32 = .div 1 2 3 := by decide
theorem test_decode_nand : decode 0b01100000000000000000000001010011#32 = .nand 1 2 3 := by decide
theorem test_decode_halt : decode 0b01110000000000000000000000000000#32 = .halt := by decide
theorem test_decode_alloc : decode 0b10000000000000000000000000010011#32 = .alloc 2 3 := by decide
theorem test_decode_abandon : decode 0b10010000000000000000000000000011#32 = .abandon 3 := by decide
theorem test_decode_out : decode 0b10100000000000000000000000000011#32 = .out 3 := by decide
theorem test_decode_in : decode 0b10110000000000000000000000000011#32 = .inp 3 := by decide
theorem test_decode_loadprog : decode 0b11000000000000000000000000010011#32 = .loadprog 2 3 := by decide
theorem test_decode_ortho : decode 0b11010110000000001000100111000011#32 = .ortho 3 35267#25 := by decide
theorem test_decode_ortho_max : decode 0xDFFFFFFF#32 = .ortho 7 0x1FFFFFF#25 := by decide
theorem test_decode_illegal14 : decode 0b11100000000000000000000000000000#32 = .illegal14 := by decide
theorem test_decode_illegal15 : decode 0xFFFFFFFF#32 = .illegal15 := by decide
theorem test_platter_of_illegal : platter 0xEABCDEF5#32 = ⟨14, false, .standard, 3, 6, 5, 5, 0xBCDEF5#25⟩ := by decide
theorem test_encode_ortho : encode (.ortho 3 35267#25) = 0xD60089C3#32 := by decide
theorem test_decodeTableWord : decodeTableWord 32 0x300001FF = some (.add 7 7 7) := by decide

/-! ### Single steps, one or two per instruction (95_test_vectors.md 2.2 to 2.5) -/

theorem test_cmov_zero : regAfter (.cmov 1 2 3) (reg (reg base 1 1#32) 2 3#32) 1 = some 1#32 := by decide
theorem test_cmov_condition_is_destination : regAfter (.cmov 1 2 1) (reg (reg base 1 9#32) 2 4#32) 1 = some 4#32 := by
  decide
theorem test_index_loads : regAfter (.index 5 1 4) (reg (reg base 1 7#32) 4 1#32) 5 = some 0x41#32 := by decide
theorem test_index_at_length :
    engineAfter (.index 2 1 4) (reg (reg base 1 7#32) 4 3#32) = some (.failed .offsetOutOfBounds) := by decide
theorem test_amend_stores :
    ((stateOf (exec (.amend 1 4 3) (reg (reg (reg base 1 7#32) 4 2#32) 3 9#32))).map
      (fun t => memArray t.mem 7#32)) = some (some ⟨3, [(1, 0x41#32), (2, 9#32)]⟩) := by decide
theorem test_amend_inactive :
    engineAfter (.amend 1 4 3) (reg base 1 9#32) = some (.failed .unallocatedAddress) := by decide
theorem test_add_wraps : regAfter (.add 1 2 3) (reg (reg base 2 0xFFFFFFFF#32) 3 3#32) 1 = some 2#32 := by decide
theorem test_add_same_register_thrice : regAfter (.add 1 1 1) (reg base 1 0xC0000001#32) 1 = some 0x80000002#32 := by
  decide
theorem test_mul_low_word :
    regAfter (.mul 1 2 3) (reg (reg base 2 0x12345678#32) 3 0x9ABCDEF0#32) 1 = some 0x242D2080#32 := by decide
theorem test_mul_wraps : regAfter (.mul 1 2 3) (reg (reg base 2 0xFFFFFFFF#32) 3 3#32) 1 = some 0xFFFFFFFD#32 := by decide
theorem test_div_unsigned : regAfter (.div 3 1 3) (reg (reg base 1 0xFFFFFFFE#32) 3 2#32) 3 = some 0x7FFFFFFF#32 := by
  decide
theorem test_div_by_zero : engineAfter (.div 1 2 3) base = some (.failed .divisionByZero) := by decide
theorem test_nand : regAfter (.nand 1 2 3) (reg (reg base 2 0x00FF00FF#32) 3 0x0000FFFF#32) 1 = some 0xFFFFFF00#32 := by
  decide
theorem test_halt_stays : pcAfter .halt { base with pc := 1#32 } = some 1#32 ∧ engineAfter .halt base = some .halted := by
  decide
theorem test_alloc_length_read_first :
    ∃ t, exec (.alloc 2 2) (reg base 2 4#32) = .next t ∧ memLen t.mem (readReg t 2) = some 4 := by
  rcases memAlloc_cases (m := base.mem) (by decide) (Config.allocDraw 0 [0, 7]) 4#32 with ⟨a, _, _, e⟩ | ⟨h, _⟩
  · have e' : exec (.alloc 2 2) (reg base 2 4#32) = attempt (memAlloc base.mem (Config.allocDraw 0 [0, 7]) 4#32)
        (reg base 2 4#32) (fun r => advance (writeReg { (reg base 2 4#32) with mem := r.2, allocator := 1 } 2 r.1)) := rfl
    rw [e, attempt_ok] at e'
    exact ⟨_, e', by simp [memLen, memArray_memPut]⟩
  · exact absurd (h 1#32 (by decide)) (by decide)
theorem test_abandon_program :
    ((stateOf (exec (.abandon 0) base)).map (fun t => (memPresent t.mem 0#32, t.engine))) = some (false, .running) := by
  decide
theorem test_abandon_twice : engineAfter (.abandon 1) (reg base 1 9#32) = some (.failed .unallocatedAddress) := by decide
theorem test_out_255 : ((stateOf (exec (.out 1) (reg base 1 255#32))).map State.output) = some [255#8] := by decide
theorem test_out_256 :
    ((stateOf (exec (.out 1) (reg base 1 256#32))).map (fun t => (t.output, t.engine)))
      = some ([], .failed .outputOutOfRange) := by decide
theorem test_in_byte : regAfter (.inp 1) { base with script := [.byte 0xFF#8] } 1 = some 0xFF#32 := by decide
theorem test_in_end_of_stream : regAfter (.inp 1) { base with script := [.eos] } 1 = some 0xFFFFFFFF#32 := by decide
theorem test_loadprog_past_end_halts :
    pcAfter (.loadprog 0 1) (reg base 1 3#32) = some 3#32 ∧ engineAfter (.loadprog 0 1) (reg base 1 3#32) = some .halted :=
  by decide
theorem test_loadprog_copies :
    ((stateOf (exec (.loadprog 1 0) (reg base 1 7#32))).map (fun t => (memArray t.mem 0#32, memArray t.mem 7#32)))
      = some (some ⟨3, [(1, 0x41#32)]⟩, some ⟨3, [(1, 0x41#32)]⟩) := by decide
theorem test_ortho_not_sign_extended : regAfter (.ortho 7 0x1FFFFFF#25) base 7 = some 0x01FFFFFF#32 := by decide
theorem test_illegal14_fails : engineAfter .illegal14 base = some (.failed .unimplementedOperator) := by decide
theorem test_illegal15_fails : engineAfter .illegal15 base = some (.failed .unimplementedOperator) := by decide
theorem test_step_end_of_program :
    ((stateOf (step (prog [0xD2000001#32]))).map (fun t => (t.engine, t.pc))) = some (.halted, 1#32) := by decide
theorem test_step_program_absent :
    ((stateOf (step (bare base))).map State.engine) = some (.failed .programAbsent) := by decide
theorem test_withFetchWord_runs_next :
    ((stateOf (step (State.reset.withFetchWord 32 0xDFFFFFFF))).map (readReg · 7)) = some 0x01FFFFFF#32 := by decide
theorem test_empty_program_is_halted : (prog []).engine = .halted := by decide
theorem test_loader_drops_zeros :
    (prog [5#32, 0#32, 6#32]).mem = ⟨[(0, ⟨3, [(0, 5#32), (2, 6#32)]⟩)]⟩ := by decide
theorem test_file_word : wordsOfFile [0x70#8, 0x01#8, 0x02#8, 0x03#8] = some [0x70010203#32] := by decide
theorem test_fault_codes :
    [FaultKind.unallocatedAddress, .zeroAddressAllocation, .reallocationOfActiveAddress, .outputOutOfRange,
      .divisionByZero, .programAbsent, .unimplementedOperator, .offsetOutOfBounds, .addressSpaceExhausted].map faultCode
      = [1, 2, 3, 4, 5, 6, 7, 8, 9] := by decide

/-! ### Witnesses: for each obligation with hypotheses, states and operands that meet them -/

/-- A machine about to execute one word, with a HALT after it and a three-word array at address 7. -/
def atWord (w : Word) : State := arr (prog [w, 0x70000000#32]) 7#32 [0#32, 0x41#32, 0#32]

/-- A machine whose program is as long as a program can be, all CMOV r0, r0, r0, one Word before its end. -/
def longest : State := { prog [0#32] with pc := 4294967294#32, mem := { arrays := [(0, ⟨4294967295, []⟩)] } }

/-- A store with the `n` addresses from 0 on active. -/
def full (n : Nat) : Memory := { arrays := (List.range n).map (fun k => (k, ⟨0, []⟩)) }

theorem full_wf {n : Nat} (h : n ≤ 2 ^ 32) : (full n).wf := by
  refine ⟨List.pairwise_map.mpr (List.pairwise_lt_range.imp fun h => h), fun p hp => ?_⟩
  obtain ⟨k, hk, rfl⟩ := List.mem_map.mp hp
  exact ⟨Nat.lt_of_lt_of_le (List.mem_range.mp hk) h, WordArray.wf_zeros (by decide)⟩

theorem full_present {n : Nat} (h : n = 2 ^ 32) (a : Word) : memPresent (full n) a = true := by
  have hm : (a.toNat, (⟨0, []⟩ : WordArray)) ∈ (full n).arrays :=
    List.mem_map.mpr ⟨a.toNat, List.mem_range.mpr (h ▸ a.isLt), rfl⟩
  have := assocGet_of_mem (full_wf (Nat.le_of_eq h)).1 hm
  simp [memPresent, memArray, this]

theorem notFailed_of {s : State} (h : s.engine = .running ∨ s.engine = .halted) : NotFailed s := by
  intro k e
  rcases h with h | h <;> rw [e] at h <;> cases h

theorem inv_of {s : State} {n : Nat} (h : s.mem.wf) (hn : memLen s.mem 0#32 = some n) (hpc : s.pc.toNat < n) : Inv s :=
  ⟨h, fun _ m hm => by rw [hn] at hm; cases hm; exact hpc⟩

theorem witness_StepRunsDecodedInstruction :
    (base.engine = .running ∧ memRead base.mem 0#32 base.pc = .ok 0x70000000#32) ∧
      (bare base).engine = .running ∧ memPresent (bare base).mem 0#32 = false := ⟨⟨rfl, rfl⟩, rfl, rfl⟩

theorem witness_FetchPastTheEndHalts :
    ({ base with pc := 3#32 } : State).engine = .running ∧ memLen base.mem 0#32 = some 3 ∧ 3 ≤ (3#32 : Word).toNat := by
  decide

theorem witness_EndOfProgramCheckDecides :
    (∃ t, step (prog [0xD2000001#32]) = .next t ∧ NotFailed t ∧ t.engine = .halted) ∧
      (∃ t, step (atWord 0xD2000001#32) = .next t ∧ NotFailed t ∧ t.engine = .running) ∧
      memRead (prog [0xD2000001#32]).mem 0#32 0#32 = .ok 0xD2000001#32 ∧ decode 0xD2000001#32 ≠ .halt :=
  ⟨⟨_, rfl, notFailed_of (.inr rfl), rfl⟩, ⟨_, rfl, notFailed_of (.inl rfl), rfl⟩, rfl, by decide⟩

theorem witness_TerminalStatesNeverChange :
    State.reset.engine ≠ .running ∧ (raise .divisionByZero base).engine ≠ .running := by decide

theorem witness_HaltedTellsItsCause :
    (∃ t, step base = .next t ∧ t.engine = .halted ∧ memRead base.mem 0#32 base.pc = .ok 0x70000000#32 ∧
      decode 0x70000000#32 = .halt) ∧
    ∃ t, step (prog [0xD2000001#32]) = .next t ∧ t.engine = .halted ∧
      memRead (prog [0xD2000001#32]).mem 0#32 0#32 = .ok 0xD2000001#32 ∧ decode 0xD2000001#32 ≠ .halt :=
  ⟨⟨_, rfl, rfl, rfl, by decide⟩, ⟨_, rfl, rfl, rfl, by decide⟩⟩

theorem witness_OperatorCodeSelectsInstruction :
    (decode 0xFFFFFFFF#32).opcode = 15 ∧ StandardWord 0x000001FF#32 0 7 7 7 ∧ StandardWord 0x100001FF#32 1 7 7 7 ∧
      StandardWord 0x200001FF#32 2 7 7 7 ∧ StandardWord 0x3FFFFE0A#32 3 0 1 2 ∧ StandardWord 0x400001FF#32 4 7 7 7 ∧
      StandardWord 0x500001FF#32 5 7 7 7 ∧ StandardWord 0x60000000#32 6 0 0 0 ∧ StandardWord 0x7ABCDEF5#32 7 3 6 5 ∧
      StandardWord 0x800001FF#32 8 7 7 7 ∧ StandardWord 0x900001FF#32 9 7 7 7 ∧ StandardWord 0xA00001FF#32 10 7 7 7 ∧
      StandardWord 0xB00001FF#32 11 7 7 7 ∧ StandardWord 0xC00001FF#32 12 7 7 7 ∧
      ImmediateWord 0xDFFFFFFF#32 7 0x1FFFFFF#25 ∧ StandardWord 0xE00001FF#32 14 7 7 7 ∧
      StandardWord 0xFFFFFFFF#32 15 7 7 7 := by
  unfold StandardWord ImmediateWord
  decide

theorem witness_IgnoredBitsChangeNothing :
    (bits 0x3FFFFE0A#32 31 28 = bits 0x3000000A#32 31 28 ∧ bits 0x3FFFFE0A#32 31 28 ≠ 13 ∧
      bits 0x3FFFFE0A#32 8 6 = bits 0x3000000A#32 8 6 ∧ bits 0x3FFFFE0A#32 5 3 = bits 0x3000000A#32 5 3 ∧
      bits 0x3FFFFE0A#32 2 0 = bits 0x3000000A#32 2 0) ∧
    (bits 0xCFFFFFCA#32 31 28 = bits 0xC000000A#32 31 28 ∧ bits 0xCFFFFFCA#32 31 28 ∈ [8, 12] ∧
      bits 0xCFFFFFCA#32 5 3 = bits 0xC000000A#32 5 3 ∧ bits 0xCFFFFFCA#32 2 0 = bits 0xC000000A#32 2 0) ∧
    (bits 0xBFFFFFFA#32 31 28 = bits 0xB0000002#32 31 28 ∧ bits 0xBFFFFFFA#32 31 28 ∈ [9, 10, 11] ∧
      bits 0xBFFFFFFA#32 2 0 = bits 0xB0000002#32 2 0) ∧
    bits 0xFFFFFFFF#32 31 28 = bits 0xF0000000#32 31 28 ∧ bits 0xFFFFFFFF#32 31 28 ∈ [7, 14, 15] := by decide

theorem witness_DecodeEncodeRoundTrip :
    (15 : Fin 16).val ≠ 13 ∧ (platter 0xFFFFFFFF#32).op.val ≠ 13 ∧ (platter 0xDFFFFFFF#32).op.val = 13 := by decide

theorem witness_LoadedMachineState :
    ([] : List Word).length ≤ 2 ^ 32 - 1 ∧ (List.replicate (2 ^ 32 - 1) 0#32 : List Word).length ≤ 2 ^ 32 - 1 ∧
      (1#32 : Word).toNat < [5#32, 6#32].length ∧ (7#32 : Word) ≠ 0#32 :=
  ⟨by decide, by rw [List.length_replicate], by decide, by decide⟩

theorem witness_TooLongProgramIsRefused : 2 ^ 32 ≤ (List.replicate (2 ^ 32) 0#32 : List Word).length := by
  rw [List.length_replicate]

theorem witness_InvariantAfterLoad : load [0x70000000#32] = .next (prog [0x70000000#32]) := rfl

theorem witness_StepKeepsInvariant : Inv base ∧ Inv longest ∧ (∃ t, step base = .next t) ∧ ∃ t, step longest = .next t :=
  ⟨inv_of (n := 3) (by decide) rfl (by decide), inv_of (n := 4294967295) (by decide) rfl (by decide), ⟨_, rfl⟩, ⟨_, rfl⟩⟩

theorem witness_ProgramLostOnlyByAbandon :
    (atWord 0x90000000#32).mem.wf ∧ (atWord 0x90000000#32).engine = .running ∧ memPresent (atWord 0x90000000#32).mem 0#32 = true ∧
      ∃ t, step (atWord 0x90000000#32) = .next t ∧ memPresent t.mem 0#32 = false :=
  ⟨by decide, rfl, rfl, _, rfl, rfl⟩

theorem witness_FingerIncrementNeverWraps :
    Inv longest ∧ longest.engine = .running ∧ memRead longest.mem 0#32 longest.pc = .ok 0#32 :=
  ⟨inv_of (n := 4294967295) (by decide) rfl (by decide), rfl, rfl⟩

theorem witness_OnlyAllocActivatesOnlyAbandonFrees :
    (∃ t a, (prog [0x80000001#32]).mem.wf ∧ step (prog [0x80000001#32]) = .next t ∧ a ≠ 0#32 ∧
      memPresent (prog [0x80000001#32]).mem a = false ∧ memPresent t.mem a = true) ∧
    ∃ t, (reg (atWord 0x90000001#32) 1 7#32).mem.wf ∧ step (reg (atWord 0x90000001#32) 1 7#32) = .next t ∧
      memPresent (atWord 0x90000001#32).mem 7#32 = true ∧ memPresent t.mem 7#32 = false := by
  refine ⟨?_, _, by decide, rfl, rfl, rfl⟩
  rcases memAlloc_cases (m := (prog [0x80000001#32]).mem) (by decide) (Config.allocDraw 0 [0]) 0#32
    with ⟨a, ha, hf, e⟩ | ⟨h, _⟩
  · have e' : step (prog [0x80000001#32]) = attempt (memAlloc (prog [0x80000001#32]).mem (Config.allocDraw 0 [0]) 0#32)
        (prog [0x80000001#32])
        (fun r => advance (writeReg { (prog [0x80000001#32]) with mem := r.2, allocator := 1 } 0 r.1)) := rfl
    rw [e, attempt_ok] at e'
    exact ⟨_, a, by decide, e', ha, by simp [memPresent, hf], by simp [memPresent, memArray_memPut]⟩
  · exact absurd (h 1#32 (by decide)) (by decide)

theorem witness_FaultChangesOnlyTheEngineState :
    ∃ t, (atWord 0x50000000#32).engine = .running ∧ step (atWord 0x50000000#32) = .next t ∧
      t.engine = .failed .divisionByZero := ⟨_, rfl, rfl, rfl⟩

theorem witness_FaultsEachInstructionCanRaise :
    base.mem.wf ∧ NotFailed base ∧ (∃ t, exec (.div 1 2 3) base = .next t ∧ t.engine = .failed .divisionByZero) ∧
    ((bare base).mem.wf ∧ (bare base).engine = .running ∧
      ∃ t, step (bare base) = .next t ∧ t.engine = .failed .programAbsent) ∧
    ((atWord 0xE0000000#32).mem.wf ∧ (atWord 0xE0000000#32).engine = .running ∧
      ∃ t, step (atWord 0xE0000000#32) = .next t ∧ t.engine = .failed .unimplementedOperator) :=
  ⟨by decide, notFailed_of (.inl rfl), ⟨_, rfl, rfl⟩, ⟨by decide, rfl, _, rfl, rfl⟩, by decide, rfl, _, rfl, rfl⟩

theorem witness_AllocationFaultsAreUnreachable :
    (prog [0x80000001#32]).mem.wf ∧ NotFailed (prog [0x80000001#32]) ∧ ∃ t, step (prog [0x80000001#32]) = .next t :=
  ⟨by decide, notFailed_of (.inl rfl), _, rfl⟩

theorem witness_FaultPriority :
    ((bare base).engine = .running ∧ memPresent (bare base).mem 0#32 = false) ∧
    ((atWord 0xE0000000#32).engine = .running ∧
      memRead (atWord 0xE0000000#32).mem 0#32 (atWord 0xE0000000#32).pc = .ok 0xE0000000#32 ∧ 14 ≤ bits 0xE0000000#32 31 28) ∧
    memPresent (reg base 1 9#32).mem (readReg (reg base 1 9#32) 1) = false ∧
    (memLen (reg (reg base 1 7#32) 2 3#32).mem (readReg (reg (reg base 1 7#32) 2 3#32) 1) = some 3 ∧
      3 ≤ (readReg (reg (reg base 1 7#32) 2 3#32) 2).toNat) := by
  refine ⟨⟨rfl, rfl⟩, ⟨rfl, rfl, by decide⟩, rfl, rfl, by decide⟩

theorem witness_RegistersReadAndWritten :
    (∃ t, exec (.add 1 2 3) base = .next t ∧ (5 : Reg) ∉ instrWrites (.add 1 2 3)) ∧
    ((∀ r ∈ instrReads (.add 1 2 3), readReg (reg base 5 9#32) r = readReg base r) ∧
      { reg base 5 9#32 with regs := base.regs } = base) ∧
    (∃ t, exec (.cmov 1 2 3) (reg base 2 9#32) = .next t ∧ readReg (reg base 2 9#32) 3 = 0#32) ∧
    ∃ t, NotFailed base ∧ exec (.div 1 2 3) base = .next t ∧ t.engine = .failed .divisionByZero :=
  ⟨⟨_, rfl, by decide⟩, ⟨by decide, rfl⟩, ⟨_, rfl, rfl⟩, _, notFailed_of (.inl rfl), rfl, rfl⟩

theorem witness_FingerAfterStep :
    (∃ t, step (atWord 0x50000000#32) = .next t ∧ t.engine = .failed .divisionByZero) ∧
    (∃ t, step base = .next t ∧ NotFailed t ∧ memRead base.mem 0#32 base.pc = .ok 0x70000000#32) ∧
    (∃ t, step (reg (atWord 0xC0000001#32) 1 1#32) = .next t ∧ NotFailed t ∧
      memRead (reg (atWord 0xC0000001#32) 1 1#32).mem 0#32 0#32 = .ok 0xC0000001#32) ∧
    ∃ t, step (atWord 0x300001FF#32) = .next t ∧ NotFailed t ∧
      memRead (atWord 0x300001FF#32).mem 0#32 0#32 = .ok 0x300001FF#32 :=
  ⟨⟨_, rfl, rfl⟩, ⟨_, rfl, notFailed_of (.inr rfl), rfl⟩, ⟨_, rfl, notFailed_of (.inl rfl), rfl⟩,
    _, rfl, notFailed_of (.inl rfl), rfl⟩

theorem witness_NoInstructionReadsTheFinger : ∃ t, exec (.add 7 7 7) base = .next t := ⟨_, rfl⟩

theorem witness_OnlyOutEmitsOnlyInConsumes :
    (∃ t, exec (.out 1) (reg base 1 255#32) = .next t ∧ t.output = [255#8]) ∧
    ∃ t, exec (.inp 1) base = .next t ∧ t.inPos = 1 := ⟨⟨_, rfl, rfl⟩, _, rfl, rfl⟩

theorem witness_EmittedBytesAreNeverTakenBack :
    ∃ t, Host.Core.run core 2 (reg (atWord 0xA0000001#32) 1 255#32) = .next t ∧ t.output = [255#8] := ⟨_, rfl, rfl⟩

theorem witness_RewrittenInstructionIsExecutedNext :
    (∃ s : State, Inv s ∧ s.engine = .running ∧ memRead s.mem 0#32 s.pc = .ok 0x20000053#32 ∧
      decode 0x20000053#32 = .amend 1 2 3 ∧ readReg s 1 = 0#32 ∧ readReg s 2 = s.pc + 1#32 ∧
      memLen s.mem 0#32 = some 2 ∧ s.pc.toNat + 1 < 2) ∧
    ∃ s : State, s.engine = .running ∧ memRead s.mem 0#32 s.pc = .ok 0xC0000013#32 ∧
      decode 0xC0000013#32 = .loadprog 2 3 ∧ memRead s.mem (readReg s 2) (readReg s 3) = .ok 0x41#32 :=
  ⟨⟨reg (atWord 0x20000053#32) 2 1#32, inv_of (n := 2) (by decide) rfl (by decide), rfl, rfl, by decide, rfl, rfl, rfl,
      by decide⟩,
    reg (reg (atWord 0xC0000013#32) 2 7#32) 3 1#32, rfl, rfl, by decide, rfl⟩

theorem witness_AluComputes : (0xFFFFFFFF#32 : Word) ≠ 0#32 ∧ (1#32 : Word) ≠ 0#32 := by decide

theorem witness_DivWritesTheQuotient : readReg (reg base 3 1#32) 3 ≠ 0#32 ∧ readReg base 3 = 0#32 := by decide

theorem witness_IndexLoadsTheElement :
    (memLen base.mem (readReg (reg (reg base 1 7#32) 2 2#32) 1) = some 3 ∧
      (readReg (reg (reg base 1 7#32) 2 2#32) 2).toNat < 3) ∧
    memPresent base.mem (readReg (reg base 1 9#32) 1) = false ∧
    (memLen base.mem (readReg (reg (reg base 1 7#32) 2 3#32) 1) = some 3 ∧
      3 ≤ (readReg (reg (reg base 1 7#32) 2 3#32) 2).toNat) := by decide

theorem witness_AmendStoresTheElement :
    (base.mem.wf ∧ memLen base.mem (readReg (reg (reg base 1 7#32) 2 2#32) 1) = some 3 ∧
      (readReg (reg (reg base 1 7#32) 2 2#32) 2).toNat < 3) ∧
    memPresent base.mem (readReg (reg base 1 9#32) 1) = false ∧
    (memLen base.mem (readReg (reg (reg base 1 7#32) 2 3#32) 1) = some 3 ∧
      3 ≤ (readReg (reg (reg base 1 7#32) 2 3#32) 2).toNat) := by decide

theorem witness_AllocCreatesAFreshZeroArray :
    (base.mem.wf ∧ ∃ p, p ≠ 0#32 ∧ memPresent base.mem p = false) ∧
    ∃ s : State, s.mem.wf ∧ ∀ p, p ≠ 0#32 → memPresent s.mem p = true :=
  ⟨⟨by decide, 1#32, by decide, rfl⟩,
    { base with mem := full (2 ^ 32) }, full_wf (Nat.le_refl _), fun p _ => full_present rfl p⟩

theorem witness_AbandonRemovesTheArray :
    (base.mem.wf ∧ memPresent base.mem (readReg (reg base 1 7#32) 1) = true) ∧
    (memPresent base.mem (readReg base 1) = true ∧ readReg base 1 = 0#32 ∧ base.engine = .running) ∧
    memPresent base.mem (readReg (reg base 1 9#32) 1) = false := by decide

theorem witness_LifeOfAnAddress :
    base.mem.wf ∧ (9#32 : Word) ≠ 0#32 ∧ memPresent base.mem 9#32 = false ∧ readReg (reg base 1 9#32) 1 = 9#32 ∧
    (7#32 : Word) ≠ 0#32 ∧ memLen base.mem 7#32 = some 3 ∧ readReg (reg base 1 7#32) 1 = 7#32 ∧
    (readReg (reg base 2 2#32) 2).toNat < 3 ∧ 3 ≤ (readReg (reg base 2 3#32) 2).toNat ∧
    memPresent base.mem 0#32 = true := by decide

theorem witness_OutEmitsTheByte :
    (readReg (reg base 1 255#32) 1).toNat ≤ 255 ∧ 256 ≤ (readReg (reg base 1 256#32) 1).toNat := by decide

theorem witness_HaltStopsInPlace : ∃ t, exec .halt base = .next t := ⟨_, rfl⟩

theorem witness_LoadprogReplacesTheProgram :
    (memPresent base.mem 0#32 = true ∧ memPresent base.mem (readReg (reg base 2 7#32) 2) = true ∧
      (7#32 : Word) ≠ 0#32 ∧ readReg base 2 = 0#32) ∧
    memPresent base.mem (readReg (reg base 2 9#32) 2) = false := by decide

/-- A state with array 7 active and array 0 not, which no step executes an instruction in. -/
def noProgram : State := { base with mem := { arrays := [(7, ⟨1, []⟩)] } }

theorem witness_LoadprogWithoutProgramStops :
    memPresent noProgram.mem 0#32 = false ∧ memPresent noProgram.mem (readReg (reg noProgram 2 7#32) 2) = true := by decide

theorem witness_ReadAfterWrite :
    (base.mem.wf ∧ (∃ m', memWrite base.mem 7#32 2#32 9#32 = .ok m') ∧ (0#32 : Word) ≠ 7#32) ∧
    memPresent base.mem 9#32 = false ∧ (memLen base.mem 7#32 = some 3 ∧ 3 ≤ (3#32 : Word).toNat) ∧
    (memLen base.mem 7#32 = some 3 ∧ (2#32 : Word).toNat < 3) :=
  ⟨⟨by decide, ⟨_, rfl⟩, by decide⟩, rfl, ⟨rfl, by decide⟩, rfl, by decide⟩

theorem witness_AllocationIsFreshForEveryDraw :
    base.mem.wf ∧ (∃ m', memAlloc base.mem 9#32 2#32 = .ok (9#32, m')) ∧
    ((full (2 ^ 32)).wf ∧ ∀ a, a ≠ 0#32 → memPresent (full (2 ^ 32)) a = true) :=
  ⟨by decide, ⟨_, rfl⟩, full_wf (Nat.le_refl _), fun p _ => full_present rfl p⟩

theorem witness_EveryFreeAddressCanBeChosen :
    (0xFFFFFFFF#32 : Word) ≠ 0#32 ∧ memPresent base.mem 0xFFFFFFFF#32 = false := by decide

theorem witness_FreedAddressIsInactive :
    (base.mem.wf ∧ (∃ m', memFree base.mem 7#32 = .ok m') ∧ ∃ m', memFree base.mem 0#32 = .ok m') ∧
    memPresent base.mem 9#32 = false ∧ memPresent base.mem 7#32 = true := ⟨⟨by decide, ⟨_, rfl⟩, _, rfl⟩, rfl, rfl⟩

theorem witness_DuplicateIsIndependent :
    (base.mem.wf ∧ (∃ m', memDupTo0 base.mem 0#32 = .ok m') ∧
      ∃ m', memDupTo0 base.mem 7#32 = .ok m' ∧ (∃ m'', memWrite m' 7#32 2#32 9#32 = .ok m'') ∧
        ∃ m'', memWrite m' 0#32 0#32 9#32 = .ok m'') ∧
    memPresent base.mem 9#32 = false ∧ memPresent base.mem 7#32 = true :=
  ⟨⟨by decide, ⟨_, rfl⟩, _, rfl, ⟨_, rfl⟩, _, rfl⟩, rfl, rfl⟩

theorem witness_ExplicitAllocationFaults :
    memPresent base.mem 7#32 = true ∧ memPresent base.mem 9#32 = false ∧
    (base.mem.wf ∧ ∃ m', memAlloc base.mem 9#32 2#32 = .ok (9#32, m')) := ⟨rfl, rfl, by decide, _, rfl⟩

end Sys2Proof.Tests
end

section
/-! PROOFS. Family 10_state: which registers each instruction reads and writes (10_state.md R12). The read half compares
two executions: operations that do not look at the register file carry two states over alike (`SameEffect.map`), and so
does the write of one value to one register (`SameEffect.writeReg`); every instruction is a composition of these. -/

namespace Sys2Proof.Machine

open Sys2Proof.Safety

/-! ### Which registers an instruction writes -/

/-- A register that the continuation leaves alone is left alone by the whole attempt, which writes none when it fails. -/
theorem attempt_keeps_readReg {α : Type} {x : Except FaultKind α} {s t : State} {go : α → State} {r : Reg}
    (h : attempt x s go = .next t) (hgo : ∀ v, readReg (go v) r = readReg s r) : readReg t r = readReg s r := by
  rcases attempt_next h with ⟨k, _, rfl⟩ | ⟨v, _, rfl⟩
  · exact readReg_raise k s r
  · exact hgo v

theorem execAlu_keeps_readReg {fn : Word → Word → Except FaultKind Word} {a b c r : Reg} {s t : State}
    (h : execAlu fn a b c s = .next t) (hr : r ≠ a) : readReg t r = readReg s r :=
  attempt_keeps_readReg h fun v => by rw [readReg_advance, readReg_writeReg_ne s v hr]

/-- CMOV with a zero condition only ends the step. -/
theorem exec_cmov_zero {a b c : Reg} {s : State} (hc : readReg s c = 0#32) :
    exec (.cmov a b c) s = .next (advance s) := by
  simp [exec, execCmov, isNonZero, hc]

/-- CMOV with a non-zero condition copies its source. -/
theorem exec_cmov_nonzero {a b c : Reg} {s : State} (hc : readReg s c ≠ 0#32) :
    exec (.cmov a b c) s = .next (advance (writeReg s a (readReg s b))) := by
  simp [exec, execCmov, isNonZero, hc]

/-- The write frame of every instruction. -/
theorem exec_keeps_readReg {i : Instr} {s t : State} {r : Reg} (h : exec i s = .next t) (hr : r ∉ instrWrites i) :
    readReg t r = readReg s r := by
  cases i with
  | cmov a b c =>
    have hra : r ≠ a := List.ne_of_not_mem_cons hr
    by_cases hc : readReg s c = 0#32
    · rw [exec_cmov_zero hc] at h; cases h; simp
    · rw [exec_cmov_nonzero hc] at h; cases h; simp [readReg_writeReg_ne _ _ hra]
  | index a b c =>
    have hra : r ≠ a := List.ne_of_not_mem_cons hr
    exact attempt_keeps_readReg h fun v => by simp [readReg_writeReg_ne _ _ hra]
  | amend a b c => exact attempt_keeps_readReg h fun m => readReg_advance _ r
  | add a b c => exact execAlu_keeps_readReg (fn := aluAdd) h (List.ne_of_not_mem_cons hr)
  | mul a b c => exact execAlu_keeps_readReg (fn := aluMul) h (List.ne_of_not_mem_cons hr)
  | div a b c => exact execAlu_keeps_readReg (fn := aluDiv) h (List.ne_of_not_mem_cons hr)
  | nand a b c => exact execAlu_keeps_readReg (fn := aluNand) h (List.ne_of_not_mem_cons hr)
  | halt => cases h; exact readReg_halt s r
  | alloc b c =>
    have hrb : r ≠ b := List.ne_of_not_mem_cons hr
    exact attempt_keeps_readReg h fun v => by rw [readReg_advance, readReg_writeReg_ne _ _ hrb]; rfl
  | abandon c => exact attempt_keeps_readReg h fun m => readReg_advance _ r
  | out c =>
    simp only [exec, execOut] at h
    split at h
    · cases h; simp
    · cases h; exact readReg_raise _ s r
  | inp c =>
    have hrc : r ≠ c := List.ne_of_not_mem_cons hr
    cases h; simp [readReg_writeReg_ne _ _ hrc]
  | loadprog b c =>
    rcases execLoadprog_next h with ⟨_, rfl⟩ | ⟨x, _, _, rfl⟩
    · exact readReg_raise _ s r
    · exact readReg_redirect _ _ r
  | ortho a imm =>
    have hra : r ≠ a := List.ne_of_not_mem_cons hr
    cases h; simp [readReg_writeReg_ne _ _ hra]
  | illegal14 | illegal15 => cases h; exact readReg_raise _ s r

/-! ### An instruction that fails -/

/-- The end-of-program check makes no machine fail. -/
theorem endCheck_engine_failed {s : State} {k : FaultKind} (h : (endCheck s).engine = .failed k) :
    s.engine = .failed k := by
  rcases endCheck_cases s with e | e <;> rw [e] at h
  · exact h
  · cases h

/-- The only failed state an instruction answers is the one `raise` makes. -/
theorem eq_raise_of_exec_failed {i : Instr} {s t : State} {k : FaultKind} (hs : NotFailed s) (h : exec i s = .next t)
    (hk : t.engine = .failed k) : t = raise k s := by
  rcases exec_cases h with ⟨k', rfl⟩ | ⟨_, rfl⟩ | ⟨u, _, hu, rfl⟩ | ⟨b, c, x, _, _, rfl⟩
  · cases hk; rfl
  · cases hk
  · exact absurd (hu.symm.trans (endCheck_engine_failed hk :)) (hs k)
  · exact absurd (endCheck_engine_failed hk :) (hs k)

/-! ### Two states that differ in registers only -/

/-- `s` with another register file. -/
def withRegs (s : State) (ρ : Vector Word 8) : State := { s with regs := ρ }

/-- The operation neither looks at the register file nor changes it. -/
def IgnoresRegs (f : State → State) : Prop := ∀ s ρ, f (withRegs s ρ) = withRegs (f s) ρ

theorem IgnoresRegs.regs_eq {f : State → State} (hf : IgnoresRegs f) (s : State) : (f s).regs = s.regs :=
  (congrArg State.regs (hf s s.regs) :)

theorem IgnoresRegs.readReg_eq {f : State → State} (hf : IgnoresRegs f) (s : State) (r : Reg) :
    readReg (f s) r = readReg s r := by
  simp [readReg, hf.regs_eq s]

theorem ignoresRegs_raise (k : FaultKind) : IgnoresRegs (raise k) := fun _ _ => rfl
theorem ignoresRegs_halt : IgnoresRegs halt := fun _ _ => rfl
theorem ignoresRegs_outByte (b : Byte) : IgnoresRegs (outByte · b) := fun _ _ => rfl
theorem ignoresRegs_setMem (m : Memory) : IgnoresRegs fun s => { s with mem := m } := fun _ _ => rfl

theorem ignoresRegs_endCheck : IgnoresRegs endCheck := by
  intro s ρ
  cases hn : memLen s.mem 0#32 with
  | none => simp [endCheck, withRegs, hn]
  | some n => by_cases hle : n ≤ s.pc.toNat <;> simp [endCheck, withRegs, hn, hle]

theorem ignoresRegs_advance : IgnoresRegs advance := fun s ρ => ignoresRegs_endCheck { s with pc := s.pc + 1#32 } ρ
theorem ignoresRegs_redirect (p : Word) : IgnoresRegs (redirect · p) := fun s ρ => ignoresRegs_endCheck { s with pc := p } ρ

theorem ignoresRegs_inByte : IgnoresRegs fun s => (inByte s).2 := fun s ρ => by simp only [inByte_eq]; rfl

/-- What R12 asks of the states `t` and `t'` an instruction answers from `s` and `s'`: they differ in registers only, and
there only where neither execution changed the register. -/
def SameEffect (s s' t t' : State) : Prop :=
  withRegs t' t.regs = t ∧
    ∀ r, readReg t' r = readReg t r ∨ (readReg t r = readReg s r ∧ readReg t' r = readReg s' r)

theorem sameEffect_start (s : State) (ρ : Vector Word 8) : SameEffect s (withRegs s ρ) s (withRegs s ρ) :=
  ⟨rfl, fun _ => .inr ⟨rfl, rfl⟩⟩

theorem SameEffect.map {s s' t t' : State} (h : SameEffect s s' t t') {f : State → State} (hf : IgnoresRegs f) :
    SameEffect s s' (f t) (f t') := by
  obtain ⟨hrest, hregs⟩ := h
  refine ⟨?_, fun r => ?_⟩
  · rw [hf.regs_eq, ← hf, hrest]
  · simpa only [hf.readReg_eq] using hregs r

theorem SameEffect.writeReg {s s' t t' : State} (h : SameEffect s s' t t') (a : Reg) (v : Word) :
    SameEffect s s' (writeReg t a v) (writeReg t' a v) := by
  obtain ⟨hrest, hregs⟩ := h
  refine ⟨?_, fun r => ?_⟩
  · exact congrArg (fun u => Machine.writeReg u a v) hrest
  · by_cases har : r = a
    · subst har; left; simp
    · simpa only [readReg_writeReg_ne _ v har] using hregs r

/-- An attempt whose continuations have the same effect has the same effect, and fails alike. -/
theorem sameEffect_attempt {α : Type} {x : Except FaultKind α} {s t : State} {ρ : Vector Word 8} {go go' : α → State}
    (h : attempt x s go = .next t) (hgo : ∀ v, SameEffect s (withRegs s ρ) (go v) (go' v)) :
    ∃ t', attempt x (withRegs s ρ) go' = .next t' ∧ SameEffect s (withRegs s ρ) t t' := by
  rcases attempt_next h with ⟨k, rfl, rfl⟩ | ⟨v, rfl, rfl⟩
  · exact ⟨_, rfl, (sameEffect_start s ρ).map (ignoresRegs_raise k)⟩
  · exact ⟨_, rfl, hgo v⟩

/-! ### Which registers an instruction reads -/

theorem sameEffect_execAlu {fn : Word → Word → Except FaultKind Word} {a b c : Reg} {s t : State} {ρ : Vector Word 8}
    (hr : ∀ r ∈ [b, c], readReg (withRegs s ρ) r = readReg s r) (h : execAlu fn a b c s = .next t) :
    ∃ t', execAlu fn a b c (withRegs s ρ) = .next t' ∧ SameEffect s (withRegs s ρ) t t' := by
  rw [execAlu, hr b (by simp), hr c (by simp)]
  exact sameEffect_attempt h fun v => ((sameEffect_start s ρ).writeReg a v).map ignoresRegs_advance

theorem sameEffect_execLoadprog {b c : Reg} {s t : State} {ρ : Vector Word 8}
    (hr : ∀ r ∈ [b, c], readReg (withRegs s ρ) r = readReg s r) (h : execLoadprog b c s = .next t) :
    ∃ t', execLoadprog b c (withRegs s ρ) = .next t' ∧ SameEffect s (withRegs s ρ) t t' := by
  have hstart := sameEffect_start s ρ
  rw [execLoadprog_eq, hr b (by simp), hr c (by simp)]
  rcases execLoadprog_next h with ⟨hx, rfl⟩ | ⟨x, hx, hp, rfl⟩
  · exact ⟨_, by simp [withRegs, hx], hstart.map (ignoresRegs_raise _)⟩
  · exact ⟨_, by simp [withRegs, hx, hp], (hstart.map (ignoresRegs_setMem _)).map (ignoresRegs_redirect _)⟩

/-- An instruction has the same effect whatever the registers it does not read hold. -/
theorem sameEffect_exec {i : Instr} {s t : State} {ρ : Vector Word 8}
    (hr : ∀ r ∈ instrReads i, readReg (withRegs s ρ) r = readReg s r) (h : exec i s = .next t) :
    ∃ t', exec i (withRegs s ρ) = .next t' ∧ SameEffect s (withRegs s ρ) t t' := by
  have hstart := sameEffect_start s ρ
  cases i with
  | cmov a b c =>
    have hb := hr b (by simp [instrReads])
    have hc := hr c (by simp [instrReads])
    by_cases h0 : readReg s c = 0#32
    · rw [exec_cmov_zero h0] at h; cases h
      exact ⟨_, exec_cmov_zero (hc.trans h0), hstart.map ignoresRegs_advance⟩
    · rw [exec_cmov_nonzero h0] at h; cases h
      rw [exec_cmov_nonzero (hc ▸ h0), hb]
      exact ⟨_, rfl, (hstart.writeReg a _).map ignoresRegs_advance⟩
  | index a b c =>
    simp only [exec, execIndex, hr b (by simp [instrReads]), hr c (by simp [instrReads])]
    exact sameEffect_attempt h fun v => (hstart.writeReg a v).map ignoresRegs_advance
  | amend a b c =>
    simp only [exec, execAmend, hr a (by simp [instrReads]), hr b (by simp [instrReads]), hr c (by simp [instrReads])]
    exact sameEffect_attempt h fun m => (hstart.map (ignoresRegs_setMem m)).map ignoresRegs_advance
  | add a b c => exact sameEffect_execAlu (fn := aluAdd) hr h
  | mul a b c => exact sameEffect_execAlu (fn := aluMul) hr h
  | div a b c => exact sameEffect_execAlu (fn := aluDiv) hr h
  | nand a b c => exact sameEffect_execAlu (fn := aluNand) hr h
  | halt => cases h; exact ⟨_, rfl, hstart.map ignoresRegs_halt⟩
  | alloc b c =>
    simp only [exec, execAlloc, hr c (by simp [instrReads])]
    refine sameEffect_attempt h fun v => SameEffect.map (.writeReg ?_ b v.1) ignoresRegs_advance
    exact hstart.map (f := fun u => { u with mem := v.2, allocator := s.allocator + 1 }) fun _ _ => rfl
  | abandon c =>
    simp only [exec, execAbandon, hr c (by simp [instrReads])]
    exact sameEffect_attempt h fun m => (hstart.map (ignoresRegs_setMem m)).map ignoresRegs_advance
  | out c =>
    simp only [exec, execOut, hr c (by simp [instrReads])] at h ⊢
    split at h
    · next hfits => cases h; exact ⟨_, if_pos hfits, (hstart.map (ignoresRegs_outByte _)).map ignoresRegs_advance⟩
    · next hfits => cases h; exact ⟨_, if_neg hfits, hstart.map (ignoresRegs_raise _)⟩
  | inp c =>
    cases h
    have hanswer : (inByte (withRegs s ρ)).1 = (inByte s).1 := by simp only [inByte_eq]; rfl
    simp only [exec, execInp, hanswer]
    exact ⟨_, rfl, ((hstart.map ignoresRegs_inByte).writeReg c _).map ignoresRegs_advance⟩
  | loadprog b c => exact sameEffect_execLoadprog hr h
  | ortho a imm => cases h; exact ⟨_, rfl, (hstart.writeReg a _).map ignoresRegs_advance⟩
  | illegal14 | illegal15 => cases h; exact ⟨_, rfl, hstart.map (ignoresRegs_raise _)⟩

/-! ### The obligation -/

/-- Settles O26: the write frame and the two-state comparison by cases on the instruction; CMOV with condition 0 only
advances, and a failing instruction answers what `raise` makes. -/
theorem registersReadAndWritten : Obligations.RegistersReadAndWritten := by
  refine ⟨fun i s t h r hr => exec_keeps_readReg h hr, fun i s s' t hr hs h => ?_, fun a b c s t h hc r => ?_,
    fun i s t k hs h hk r => ?_⟩
  · obtain ⟨ρ, rfl⟩ : ∃ ρ, s' = withRegs s ρ := ⟨s'.regs, (congrArg (withRegs · s'.regs) hs :)⟩
    exact sameEffect_exec hr h
  · rw [exec_cmov_zero hc] at h
    cases h
    exact readReg_advance s r
  · rw [eq_raise_of_exec_failed hs h hk, readReg_raise]

end Sys2Proof.Machine
end

section
/-! PROOFS. Family 20_memory: reading and writing one element of one array (20_memory.md R35, R36). A read and a write
make the same two checks, so each has one equation per outcome of the checks; a write that succeeds is the store with one
array put at the address (`memWrite_ok`), and what is read there afterwards follows from the laws of `memPut`. -/

namespace Sys2Proof.Machine

/-! ### The address check and the length, in terms of the array -/

theorem memArray_eq_none_of_not_memPresent {m : Memory} {a : Word} (h : memPresent m a = false) :
    memArray m a = none := by
  simpa [memPresent] using h

theorem memLen_eq_some {m : Memory} {a : Word} {n : Nat} :
    memLen m a = some n ↔ ∃ x, memArray m a = some x ∧ x.len = n := by
  simp [memLen]

/-! ### One equation per outcome of the two checks -/

theorem memRead_of_inactive {m : Memory} {a : Word} (h : memArray m a = none) (o : Word) :
    memRead m a o = .error .unallocatedAddress := by
  simp [memRead, h]

theorem memRead_of_active {m : Memory} {a : Word} {x : WordArray} (h : memArray m a = some x) (o : Word) :
    memRead m a o = if x.len ≤ o.toNat then .error .offsetOutOfBounds else .ok (x.get o.toNat) := by
  simp [memRead, h]

theorem memWrite_of_inactive {m : Memory} {a : Word} (h : memArray m a = none) (o v : Word) :
    memWrite m a o v = .error .unallocatedAddress := by
  simp [memWrite, h]

theorem memWrite_of_active {m : Memory} {a : Word} {x : WordArray} (h : memArray m a = some x) (o v : Word) :
    memWrite m a o v =
      if x.len ≤ o.toNat then .error .offsetOutOfBounds else .ok (memPut m a (x.set o.toNat v)) := by
  simp [memWrite, h]

/-- A write that succeeds passed both checks and put back the array with one element set. -/
theorem memWrite_ok {m m' : Memory} {a o v : Word} (h : memWrite m a o v = .ok m') :
    ∃ x, memArray m a = some x ∧ o.toNat < x.len ∧ m' = memPut m a (x.set o.toNat v) := by
  cases hx : memArray m a with
  | none => rw [memWrite_of_inactive hx] at h; cases h
  | some x =>
    rw [memWrite_of_active hx] at h
    split at h
    · cases h
    · next ho => cases h; exact ⟨x, rfl, Nat.lt_of_not_le ho, rfl⟩

/-! ### The store after an array is put at an address -/

theorem memArray_memPut_self (m : Memory) (a : Word) (x : WordArray) : memArray (memPut m a x) a = some x := by
  simp [memArray_memPut]

theorem memArray_memPut_ne (m : Memory) {a p : Word} (x : WordArray) (h : p ≠ a) :
    memArray (memPut m a x) p = memArray m p := by
  simp [memArray_memPut, Ne.symm h]

theorem memRead_memPut_ne (m : Memory) {a p : Word} (x : WordArray) (h : p ≠ a) (q : Word) :
    memRead (memPut m a x) p q = memRead m p q := by
  simp only [memRead, memArray_memPut_ne m x h]

theorem memLen_memPut_ne (m : Memory) {a p : Word} (x : WordArray) (h : p ≠ a) :
    memLen (memPut m a x) p = memLen m p := by
  simp only [memLen, memArray_memPut_ne m x h]

/-! ### What a write that succeeds changes and keeps -/

section
variable {m m' : Memory} {a o v : Word}

theorem memRead_memWrite_self (hm : m.wf) (h : memWrite m a o v = .ok m') : memRead m' a o = .ok v := by
  obtain ⟨x, hx, ho, rfl⟩ := memWrite_ok h
  obtain ⟨hrising, _, _⟩ := memArray_wf hm hx
  rw [memRead_of_active (memArray_memPut_self m a _), WordArray.len_set, if_neg (Nat.not_le_of_lt ho),
    WordArray.get_set hrising, if_pos rfl]

/-- The read frame: in another array by the address, in the same array by the offset. -/
theorem memRead_memWrite_ne (hm : m.wf) (h : memWrite m a o v = .ok m') {p q : Word} (hpq : p ≠ a ∨ q ≠ o) :
    memRead m' p q = memRead m p q := by
  obtain ⟨x, hx, -, rfl⟩ := memWrite_ok h
  by_cases hp : p = a
  · subst hp
    have hq : o.toNat ≠ q.toNat := fun e => (hpq.resolve_left (· rfl)) (BitVec.eq_of_toNat_eq e.symm)
    obtain ⟨hrising, _, _⟩ := memArray_wf hm hx
    rw [memRead_of_active (memArray_memPut_self m p _), memRead_of_active hx, WordArray.len_set,
      WordArray.get_set hrising, if_neg hq]
  · exact memRead_memPut_ne m _ hp q

/-- A write never extends an array. -/
theorem memLen_memWrite (h : memWrite m a o v = .ok m') (p : Word) : memLen m' p = memLen m p := by
  obtain ⟨x, hx, -, rfl⟩ := memWrite_ok h
  by_cases hp : p = a
  · subst hp
    rw [memLen_eq_some.mpr ⟨_, memArray_memPut_self m p _, rfl⟩, memLen_eq_some.mpr ⟨x, hx, rfl⟩, WordArray.len_set]
  · exact memLen_memPut_ne m _ hp

end

/-! ### The obligation -/

/-- Settles O51: what a successful write changes and keeps, then one equation of the read and one of the write for each
outcome of the two checks. -/
theorem readAfterWrite : Obligations.ReadAfterWrite := by
  refine ⟨fun m m' a o v hm h => ⟨memRead_memWrite_self hm h, fun p q hpq => memRead_memWrite_ne hm h hpq,
    memLen_memWrite h⟩, fun m a o v h => ?_, fun m a o v n hn ho => ?_, fun m a o v n hn ho => ?_⟩
  · have hx := memArray_eq_none_of_not_memPresent h
    exact ⟨memWrite_of_inactive hx o v, memRead_of_inactive hx o⟩
  · obtain ⟨x, hx, rfl⟩ := memLen_eq_some.mp hn
    rw [memWrite_of_active hx, memRead_of_active hx, if_pos ho, if_pos ho]
    exact ⟨rfl, rfl⟩
  · obtain ⟨x, hx, rfl⟩ := memLen_eq_some.mp hn
    rw [memWrite_of_active hx, memRead_of_active hx, if_neg (Nat.not_le_of_lt ho), if_neg (Nat.not_le_of_lt ho)]
    exact ⟨⟨_, rfl⟩, _, rfl⟩

end Sys2Proof.Machine
end

section
/-! PROOFS. Family 30_encoding: the decoder, the platter and the encoder. Each field of a word is a bit slice, and
`encodeS` and `encodeI` place the slices; every row of the opcode map is one lemma (`decodesStandard_cmov` and the rest),
through which the selection by operator code (R65) and the round trip (R74) both go. -/

namespace Sys2Proof

open Sys2Proof.Machine Sys2Proof.Safety

/-! ### The platter's fields -/

@[simp] theorem platter_op (w : Word) : (platter w).op = operator w := rfl
@[simp] theorem platter_a (w : Word) : (platter w).a = selector w 6 := rfl
@[simp] theorem platter_b (w : Word) : (platter w).b = selector w 3 := rfl
@[simp] theorem platter_c (w : Word) : (platter w).c = selector w 0 := rfl
@[simp] theorem platter_a13 (w : Word) : (platter w).a13 = selector w 25 := rfl
@[simp] theorem platter_imm (w : Word) : (platter w).imm = immediate w := rfl

theorem platter_legal_iff (w : Word) : (platter w).legal = true ↔ (platter w).op.val ≤ 13 := decide_eq_true_iff

theorem platter_layout_iff (w : Word) : (platter w).layout = .immediate ↔ (platter w).op.val = 13 := by
  simp only [platter]
  split <;> simp [*]

theorem platter_wellFormed (w : Word) : (platter w).wellFormed = true := by
  have hlegal : (platter w).legal = decide ((platter w).op.val ≤ 13) := rfl
  simp only [Platter.wellFormed, hlegal, platter_layout_iff, beq_self_eq_true, Bool.and_self]

/-! ### Fields and bit slices -/

/-- The spec's `w[hi:lo]` is the library's slice of `hi - lo + 1` bits from bit `lo`. -/
theorem bits_eq_extractLsb' (w : Word) (hi lo : Nat) : bits w hi lo = (w.extractLsb' lo (hi - lo + 1)).toNat := by
  rw [bits, BitVec.extractLsb'_toNat, Nat.shiftRight_eq_div_pow]

theorem operator_eq_of_bits {w : Word} {op : Fin 16} (h : bits w 31 28 = op.val) : operator w = op := Fin.ext h

theorem selector_eq_of_bits {w : Word} {lo : Nat} {r : Reg} (h : bits w (lo + 2) lo = r.val) : selector w lo = r :=
  Fin.ext h

theorem immediate_eq_of_bits {w : Word} {imm : Imm} (h : bits w 24 0 = imm.toNat) : immediate w = imm := by
  rw [immediate, h, BitVec.ofNat_toNat, BitVec.setWidth_eq]

theorem toNat_immediate (w : Word) : (immediate w).toNat = bits w 24 0 := by
  rw [immediate, BitVec.toNat_ofNat]
  exact Nat.mod_eq_of_lt (bits_lt w 24 0)

/-! ### The rows of the opcode map (30_encoding.md R65) -/

/-- The decoder on a word of known operator code: the opcode map at that code, with the word's operand fields. -/
theorem decode_of_bits {w : Word} {op : Fin 16} (h : bits w 31 28 = op.val) :
    decode w = Platter.instr { platter w with op := op } := by
  rw [← operator_eq_of_bits h]
  rfl

/-- A row of the opcode map that takes its operands from the standard fields is a row of the decoder. -/
theorem decodesStandard_of_instr {op : Fin 16} {mk : Reg → Reg → Reg → Instr}
    (hrow : ∀ p : Platter, Platter.instr { p with op := op } = mk p.a p.b p.c) : DecodesStandard op.val mk := by
  rintro w a b c ⟨hop, ha, hb, hc⟩
  rw [decode_of_bits hop, hrow, platter_a, platter_b, platter_c, selector_eq_of_bits ha, selector_eq_of_bits hb,
    selector_eq_of_bits hc]

theorem decodesStandard_cmov : DecodesStandard 0 .cmov :=
  decodesStandard_of_instr (op := 0) fun _ => rfl
theorem decodesStandard_index : DecodesStandard 1 .index :=
  decodesStandard_of_instr (op := 1) fun _ => rfl
theorem decodesStandard_amend : DecodesStandard 2 .amend :=
  decodesStandard_of_instr (op := 2) fun _ => rfl
theorem decodesStandard_add : DecodesStandard 3 .add :=
  decodesStandard_of_instr (op := 3) fun _ => rfl
theorem decodesStandard_mul : DecodesStandard 4 .mul :=
  decodesStandard_of_instr (op := 4) fun _ => rfl
theorem decodesStandard_div : DecodesStandard 5 .div :=
  decodesStandard_of_instr (op := 5) fun _ => rfl
theorem decodesStandard_nand : DecodesStandard 6 .nand :=
  decodesStandard_of_instr (op := 6) fun _ => rfl
theorem decodesStandard_halt : DecodesStandard 7 fun _ _ _ => .halt :=
  decodesStandard_of_instr (op := 7) fun _ => rfl
theorem decodesStandard_alloc : DecodesStandard 8 fun _ b c => .alloc b c :=
  decodesStandard_of_instr (op := 8) fun _ => rfl
theorem decodesStandard_abandon : DecodesStandard 9 fun _ _ c => .abandon c :=
  decodesStandard_of_instr (op := 9) fun _ => rfl
theorem decodesStandard_out : DecodesStandard 10 fun _ _ c => .out c :=
  decodesStandard_of_instr (op := 10) fun _ => rfl
theorem decodesStandard_inp : DecodesStandard 11 fun _ _ c => .inp c :=
  decodesStandard_of_instr (op := 11) fun _ => rfl
theorem decodesStandard_loadprog : DecodesStandard 12 fun _ b c => .loadprog b c :=
  decodesStandard_of_instr (op := 12) fun _ => rfl
theorem decodesStandard_illegal14 : DecodesStandard 14 fun _ _ _ => .illegal14 :=
  decodesStandard_of_instr (op := 14) fun _ => rfl
theorem decodesStandard_illegal15 : DecodesStandard 15 fun _ _ _ => .illegal15 :=
  decodesStandard_of_instr (op := 15) fun _ => rfl

/-- Row 13, the one row of the immediate layout. -/
theorem decode_of_immediateWord {w : Word} {a : Reg} {imm : Imm} (h : ImmediateWord w a imm) :
    decode w = .ortho a imm := by
  obtain ⟨hop, ha, himm⟩ := h
  have hrow : decode w = .ortho (platter w).a13 (platter w).imm := decode_of_bits (op := 13) hop
  rw [hrow, platter_a13, platter_imm, selector_eq_of_bits ha, immediate_eq_of_bits himm]

/-! ### The operator code of a decoded word -/

/-- The decoder chooses the instruction by bits 31 to 28 and by nothing else. -/
theorem opcode_decode (w : Word) : (decode w).opcode = bits w 31 28 := by
  have hlt : bits w 31 28 < 16 := bits_lt w 31 28
  rw [decode_eq]
  interval_cases bits w 31 28 <;> rfl

theorem Instr.wellFormed_iff_opcode (i : Instr) : i.wellFormed = true ↔ i.opcode ≤ 13 := by
  cases i <;> simp [Instr.wellFormed, Instr.opcode]

/-! ### Masks -/

/-- The mask of R65 keeps the operator code in its place: shift it down and up again. -/
theorem toNat_and_operatorMask (w : Word) : (w &&& 0xF0000000#32).toNat = bits w 31 28 * 2 ^ 28 := by
  have hshift : w &&& 0xF0000000#32 = w >>> 28 <<< 28 := (BitVec.shiftLeft_ushiftRight (x := w) (n := 28)).symm
  have hw := w.isLt
  rw [hshift, BitVec.toNat_shiftLeft, BitVec.toNat_ushiftRight, Nat.shiftLeft_eq, Nat.shiftRight_eq_div_pow, bits]
  omega

/-- The mask of the three selectors keeps the word's remainder modulo `2^9`. -/
theorem toNat_and_selectorMask (w : Word) : (w &&& 0x1FF#32).toNat = w.toNat % 2 ^ 9 :=
  Nat.and_two_pow_sub_one_eq_mod w.toNat 9

/-- The mask of all that the standard layout reads is the two masks side by side. -/
theorem toNat_and_standardMask (w : Word) :
    (w &&& 0xF00001FF#32).toNat = bits w 31 28 * 2 ^ 28 + w.toNat % 2 ^ 9 := by
  have hdisjoint : (w &&& 0xF0000000#32) &&& (w &&& 0x1FF#32) = 0#32 := calc
    _ = (w &&& w) &&& (0xF0000000#32 &&& 0x1FF#32) := by ac_rfl
    _ = 0#32 := BitVec.and_zero
  have hsplit : w &&& 0xF00001FF#32 = (w &&& 0xF0000000#32) + (w &&& 0x1FF#32) := by
    rw [BitVec.add_eq_or_of_and_eq_zero _ _ hdisjoint, ← BitVec.and_or_distrib_left]
    rfl
  have hop := bits_lt w 31 28
  rw [hsplit, BitVec.toNat_add, toNat_and_operatorMask, toNat_and_selectorMask]
  omega

/-- Mask and match of R65, as an equation of numbers. -/
theorem and_operatorMask_eq_iff (w : Word) {op : Nat} (hop : op < 16) :
    w &&& 0xF0000000#32 = BitVec.ofNat 32 (op * 2 ^ 28) ↔ bits w 31 28 = op := by
  rw [← BitVec.toNat_inj, toNat_and_operatorMask, BitVec.toNat_ofNat]
  omega

/-! ### Encoding, then decoding -/

theorem standardWord_encodeS {op : Nat} (hop : op < 16) (a b c : Reg) : StandardWord (encodeS op a b c) op a b c := by
  obtain ⟨h, -, ha, hb, hc⟩ := bits_encodeS hop a b c
  exact ⟨h, ha, hb, hc⟩

theorem immediateWord_encodeI (a : Reg) (imm : Imm) : ImmediateWord (encodeI a imm) a imm := bits_encodeI a imm

theorem decode_encodeS {op : Nat} {mk : Reg → Reg → Reg → Instr} (h : DecodesStandard op mk)
    (a b c : Reg) (hop : op < 16 := by decide) : decode (encodeS op a b c) = mk a b c :=
  h _ a b c (standardWord_encodeS hop a b c)

/-- The first half of R74: the canonical word of an instruction decodes to it. -/
theorem decode_encode (i : Instr) : decode (encode i) = i := by
  cases i with
  | cmov a b c => exact decode_encodeS decodesStandard_cmov a b c
  | index a b c => exact decode_encodeS decodesStandard_index a b c
  | amend a b c => exact decode_encodeS decodesStandard_amend a b c
  | add a b c => exact decode_encodeS decodesStandard_add a b c
  | mul a b c => exact decode_encodeS decodesStandard_mul a b c
  | div a b c => exact decode_encodeS decodesStandard_div a b c
  | nand a b c => exact decode_encodeS decodesStandard_nand a b c
  | halt => exact decode_encodeS decodesStandard_halt 0 0 0
  | alloc b c => exact decode_encodeS decodesStandard_alloc 0 b c
  | abandon c => exact decode_encodeS decodesStandard_abandon 0 0 c
  | out c => exact decode_encodeS decodesStandard_out 0 0 c
  | inp c => exact decode_encodeS decodesStandard_inp 0 0 c
  | loadprog b c => exact decode_encodeS decodesStandard_loadprog 0 b c
  | ortho a imm => exact decode_of_immediateWord (immediateWord_encodeI a imm)
  | illegal14 => exact decode_encodeS decodesStandard_illegal14 0 0 0
  | illegal15 => exact decode_encodeS decodesStandard_illegal15 0 0 0

/-! ### Decoding, then encoding -/

/-- Encoding the standard fields of a word clears bits 27 to 9: the three selectors are the word's last nine bits. -/
theorem encodeS_platter (w : Word) :
    encodeS (platter w).op.val (platter w).a (platter w).b (platter w).c = w &&& 0xF00001FF#32 := by
  apply BitVec.eq_of_toNat_eq
  rw [toNat_and_standardMask, encodeS, BitVec.toNat_ofNat]
  simp only [platter_op, platter_a, platter_b, platter_c, operator, selector, bits]
  omega

/-- Encoding the immediate fields of a word of code 13 gives back the word: they cover all its bits. -/
theorem encodeI_platter {w : Word} (h : (platter w).op.val = 13) :
    encodeI (platter w).a13 (platter w).imm = w := by
  apply BitVec.eq_of_toNat_eq
  rw [encodeI, BitVec.toNat_ofNat, platter_imm, toNat_immediate]
  simp only [platter_op, platter_a13, operator, selector, bits] at h ⊢
  omega

/-! ### A word that changes no register -/

/-- A conditional move from a register to itself changes no register, whatever its condition. -/
theorem exec_cmov_same (a c : Reg) (s : State) :
    ∃ t, exec (.cmov a a c) s = .next t ∧ ∀ r, readReg t r = readReg s r := by
  by_cases hc : readReg s c = 0#32
  · exact ⟨_, exec_cmov_zero hc, readReg_advance s⟩
  · refine ⟨_, exec_cmov_nonzero hc, fun r => ?_⟩
    rw [readReg_advance, readReg_writeReg]
    split
    · next h => rw [h]
    · rfl

/-! ### The obligations -/

/-- Settles O10: the instruction by cases, one row of the opcode map each; the fields from the bits of an encoded word;
the converses by comparing numbers. -/
theorem decodeEncodeRoundTrip : Obligations.DecodeEncodeRoundTrip := by
  refine ⟨decode_encode, fun op a b c _ => ?_, fun a imm => ?_, fun w _ => encodeS_platter w,
    fun w => encodeI_platter⟩
  · obtain ⟨hop, ha, hb, hc⟩ := standardWord_encodeS op.isLt a b c
    exact ⟨operator_eq_of_bits hop, selector_eq_of_bits ha, selector_eq_of_bits hb, selector_eq_of_bits hc⟩
  · obtain ⟨hop, ha, himm⟩ := immediateWord_encodeI a imm
    exact ⟨operator_eq_of_bits hop, selector_eq_of_bits ha, immediate_eq_of_bits himm⟩

/-- Settles O8: the operator code of the decoded word is the masked one, and each row is a lemma of its own. -/
theorem operatorCodeSelectsInstruction : Obligations.OperatorCodeSelectsInstruction := by
  refine ⟨fun w op hop => ?_, decodesStandard_cmov, decodesStandard_index, decodesStandard_amend, decodesStandard_add,
    decodesStandard_mul, decodesStandard_div, decodesStandard_nand, decodesStandard_halt, decodesStandard_alloc,
    decodesStandard_abandon, decodesStandard_out, decodesStandard_inp, decodesStandard_loadprog,
    fun w a imm => decode_of_immediateWord, decodesStandard_illegal14, decodesStandard_illegal15⟩
  rw [opcode_decode, and_operatorMask_eq_iff w hop]

/-- Settles O11: whether an instruction is legal is a matter of its operator code, which is the word's; the all-zero word
is a move from r0 to r0. -/
theorem legalWordsAreCodes0To13 : Obligations.LegalWordsAreCodes0To13 := by
  have hzero : decode 0x00000000#32 = .cmov 0 0 0 := by decide
  refine ⟨fun w => ?_, hzero, by decide, fun s => ?_⟩
  · rw [Instr.wellFormed_iff_opcode, opcode_decode]
  · rw [hzero]
    exact exec_cmov_same 0 0 s

/-- Settles O6: the sixteen words are closed, so the decoder evaluates on each. -/
theorem sampleWordsDecode : Obligations.SampleWordsDecode := by
  unfold Obligations.SampleWordsDecode
  decide

/-- Settles O7: every field is a slice `w[hi:lo]`, which is the library's. -/
theorem platterFieldsAreBitSlices : Obligations.PlatterFieldsAreBitSlices := fun w =>
  ⟨bits_eq_extractLsb' w 31 28, bits_eq_extractLsb' w 8 6, bits_eq_extractLsb' w 5 3, bits_eq_extractLsb' w 2 0,
    bits_eq_extractLsb' w 27 25, immediate_eq_of_bits (bits_eq_extractLsb' w 24 0), platter_legal_iff w,
    platter_layout_iff w, platter_wellFormed w⟩

end Sys2Proof
end

section
/-! PROOFS. Family 40_cycle_and_control: the step, the finger, and the instructions whose whole effect is on control.
What a step of a running machine answers is one equation per outcome of the fetch; what the finger and the engine state
are afterwards follows from the four ways an operation ends (`exec_cases`). -/

namespace Sys2Proof.Machine

open Sys2Proof.Safety

/-! ### The step, by what the fetch finds (40_cycle_and_control.md R80 to R82) -/

/-- A read that succeeds passed both checks. -/
theorem memRead_ok {m : Memory} {a o v : Word} (h : memRead m a o = .ok v) :
    ∃ x, memArray m a = some x ∧ o.toNat < x.len ∧ v = x.get o.toNat := by
  cases hx : memArray m a with
  | none => rw [memRead_of_inactive hx] at h; cases h
  | some x =>
    rw [memRead_of_active hx] at h
    split at h
    · cases h
    · next ho => cases h; exact ⟨x, rfl, Nat.lt_of_not_le ho, rfl⟩

theorem step_of_not_running {s : State} (h : s.engine ≠ .running) : step s = .next s := by
  cases he : s.engine with
  | running => exact absurd he h
  | halted | failed k => simp [step, fetch, he]

theorem step_of_programAbsent {s : State} (hr : s.engine = .running) (hx : memArray s.mem 0#32 = none) :
    step s = .next (raise .programAbsent s) := by
  simp [step, fetch, hr, hx]

/-- The fetch reads the Word that MemRead answers at the finger of array 0. -/
theorem step_of_memRead {s : State} {w : Word} (hr : s.engine = .running) (hw : memRead s.mem 0#32 s.pc = .ok w) :
    step s = exec (decode w) s := by
  obtain ⟨x, hx, hpc, rfl⟩ := memRead_ok hw
  simp [step, fetch, hr, hx, Nat.not_le_of_lt hpc]

theorem run_of_not_running {s : State} (h : s.engine ≠ .running) (n : Nat) : Host.Core.run core n s = .next s := by
  induction n with
  | zero => rfl
  | succ n ih => rw [run_next (step_of_not_running h), ih]

/-! ### The end of a step: the engine state -/

/-- The redirected end of LOADPROG makes the check on the store it leaves. -/
theorem redirect_setMem_checked (s : State) (m : Memory) (p : Word) :
    EngineChecked s (redirect { s with mem := m } p) :=
  redirect_checked (u := { s with mem := m }) rfl p

/-- An instruction that neither fails nor is HALT ends through the end-of-program check. -/
theorem exec_engineChecked {i : Instr} {s t : State} (h : exec i s = .next t) (hi : i ≠ .halt) (ht : NotFailed t) :
    EngineChecked s t := by
  rcases exec_cases h with ⟨k, rfl⟩ | ⟨hhalt, _⟩ | ⟨u, hpc, he, rfl⟩ | ⟨b, c, x, _, _, rfl⟩
  · exact absurd rfl (ht k)
  · exact absurd hhalt hi
  · obtain ⟨_, hchecked⟩ := advance_endsNormal hpc he
    exact hchecked
  · exact redirect_setMem_checked s _ _

section
variable {s t : State}

theorem halted_iff_of_engineChecked (h : EngineChecked s t) (hs : s.engine = .running) :
    t.engine = .halted ↔ ∃ n, memLen t.mem 0#32 = some n ∧ n ≤ t.pc.toNat := by
  obtain ⟨hpast, hinside⟩ := h
  refine ⟨fun hhalted => ?_, fun ⟨n, hn, hle⟩ => hpast n hn hle⟩
  by_contra! hin
  rw [hinside hin, hs] at hhalted
  cases hhalted

theorem running_iff_of_engineChecked (h : EngineChecked s t) (hs : s.engine = .running) :
    t.engine = .running ↔ ∀ n, memLen t.mem 0#32 = some n → t.pc.toNat < n := by
  obtain ⟨hpast, hinside⟩ := h
  refine ⟨fun hrunning n hn => ?_, fun hin => (hinside hin).trans hs⟩
  by_contra! hle
  rw [hpast n hn hle] at hrunning
  cases hrunning

end

/-! ### The end of a step: the finger -/

/-- The only failed state a step of a running machine answers is the one `raise` makes. -/
theorem eq_raise_of_step_failed {s t : State} {k : FaultKind} (hs : s.engine = .running) (h : step s = .next t)
    (hk : t.engine = .failed k) : t = raise k s := by
  have hnf : NotFailed s := fun k e => by rw [hs] at e; cases e
  rcases step_cases h with ⟨hne, _⟩ | ⟨_, _, rfl⟩ | ⟨x, _, _, _, rfl⟩ | ⟨x, _, _, _, hexec⟩
  · exact absurd hs hne
  · cases hk; rfl
  · cases hk
  · exact eq_raise_of_exec_failed hnf hexec hk

/-- An instruction that does not fail and is neither HALT nor LOADPROG moves the finger on by one Word. -/
theorem exec_pc_of_normal {i : Instr} {s t : State} (h : exec i s = .next t) (ht : NotFailed t) (hhalt : i ≠ .halt)
    (hload : ∀ b c, i ≠ .loadprog b c) : t.pc = s.pc + 1#32 := by
  rcases exec_cases h with ⟨k, rfl⟩ | ⟨e, _⟩ | ⟨u, hpc, _, rfl⟩ | ⟨b, c, x, e, _, _⟩
  · exact absurd rfl (ht k)
  · exact absurd e hhalt
  · rw [advance_pc, hpc]
  · exact absurd e (hload b c)

theorem exec_loadprog_pc {b c : Reg} {s t : State} (h : exec (.loadprog b c) s = .next t) (ht : NotFailed t) :
    t.pc = readReg s c := by
  rcases execLoadprog_next h with ⟨_, rfl⟩ | ⟨x, _, _, rfl⟩
  · exact absurd rfl (ht .unallocatedAddress)
  · exact redirect_pc _ _

/-! ### LOADPROG (40_cycle_and_control.md R90) -/

theorem exec_loadprog_of_active {b c : Reg} {s : State} {x : WordArray} (h0 : memPresent s.mem 0#32 = true)
    (hx : memArray s.mem (readReg s b) = some x) :
    exec (.loadprog b c) s = .next (redirect { s with mem := memPut s.mem 0#32 x } (readReg s c)) := by
  simp [exec, execLoadprog_eq, hx, h0]

theorem exec_loadprog_of_inactive {b c : Reg} {s : State} (hx : memArray s.mem (readReg s b) = none) :
    exec (.loadprog b c) s = .next (raise .unallocatedAddress s) := by
  simp [exec, execLoadprog_eq, hx]

theorem encode_loadprog (b c : Reg) :
    encode (.loadprog b c) = BitVec.ofNat 32 (0xC0000000 + b.val * 8 + c.val) := by
  simp [encode, encodeS]

section
variable {m m' : Memory} {a a' : Word}

theorem memLen_congr (h : memArray m' a' = memArray m a) : memLen m' a' = memLen m a := by
  simp only [memLen, h]

theorem memRead_congr (h : memArray m' a' = memArray m a) (o : Word) : memRead m' a' o = memRead m a o := by
  simp only [memRead, h]

theorem sameArray_of_memArray_eq (h : memArray m' a = memArray m a) : SameArray m m' a :=
  ⟨memLen_congr h, memRead_congr h⟩

end

/-- Putting back the array that is there changes no array. -/
theorem sameArray_memPut_same {m : Memory} {a : Word} {x : WordArray} (hx : memArray m a = some x) (p : Word) :
    SameArray m (memPut m a x) p := by
  apply sameArray_of_memArray_eq
  by_cases hp : p = a
  · rw [hp, memArray_memPut_self, hx]
  · exact memArray_memPut_ne m x hp

/-! ### The illegal codes (40_cycle_and_control.md R91) -/

theorem illegal_iff_opcode (i : Instr) : i = .illegal14 ∨ i = .illegal15 ↔ 14 ≤ i.opcode := by
  cases i <;> simp [Instr.opcode]

/-- The operator code is the word's leading four bits, so a bound on it is a bound on the word. -/
theorem le_bits_31_28_iff (w : Word) (op : Nat) : op ≤ bits w 31 28 ↔ op * 2 ^ 28 ≤ w.toNat := by
  have hw := w.isLt
  simp only [bits]
  omega

/-! ### The obligations -/

/-- Settles O3: the step is the instruction's, which ends through the end-of-program check; a running machine's engine
state after the check says on which side of the end the finger is. -/
theorem endOfProgramCheckDecides : Obligations.EndOfProgramCheckDecides := by
  intro s t w hs hw hi h ht
  rw [step_of_memRead hs hw] at h
  have hchecked := exec_engineChecked h hi ht
  exact ⟨halted_iff_of_engineChecked hchecked hs, running_iff_of_engineChecked hchecked hs⟩

/-- Settles O27: a failed step only took the fault; otherwise HALT, LOADPROG and the normal end, case by case. -/
theorem fingerAfterStep : Obligations.FingerAfterStep := by
  intro s t hs h
  refine ⟨fun k hk => ?_, fun w hw ht => ?_⟩
  · rw [eq_raise_of_step_failed hs h hk, raise_pc]
  · rw [step_of_memRead hs hw] at h
    split
    · next hi => rw [hi] at h; cases h; exact halt_pc s
    · next b c hi => rw [hi] at h; exact exec_loadprog_pc h ht
    · next hhalt hload => exact exec_pc_of_normal h ht hhalt hload

/-- Settles O47: HALT answers `halt s`, which changes the engine state alone, and no step leaves a halted state. -/
theorem haltStopsInPlace : Obligations.HaltStopsInPlace := by
  refine ⟨decodesStandard_halt, rfl, fun s => ?_, fun s t n h => ?_⟩
  · exact ⟨halt s, rfl, halt_engine s, halt_pc s, fun r _ => readReg_halt s r, halt_mem s, halt_allocator s,
      halt_output s, halt_inPos s, halt_script s⟩
  · cases h
    exact run_of_not_running (s := halt s) (by simp) n

/-- Settles O48: LOADPROG puts the source array at address 0, so what is read there is the source, and elsewhere what
was there before. -/
theorem loadprogReplacesTheProgram : Obligations.LoadprogReplacesTheProgram := by
  refine ⟨decodesStandard_loadprog, encode_loadprog, fun b c s h0 hb => ?_, fun b c s hb => ?_⟩
  · obtain ⟨x, hx⟩ := Option.isSome_iff_exists.mp hb
    have hcopy : memArray (memPut s.mem 0#32 x) 0#32 = memArray s.mem (readReg s b) := by
      rw [memArray_memPut_self, hx]
    refine ⟨_, exec_loadprog_of_active h0 hx, redirect_pc _ _, redirect_setMem_checked s _ _, ?_⟩
    simp only [redirect_mem, redirect_allocator, ChannelSame, redirect_output, redirect_inPos, redirect_script, and_true]
    refine ⟨memLen_congr hcopy, memRead_congr hcopy, fun p hp => ?_, fun hzero => ?_, fun r _ => ?_⟩
    · exact sameArray_of_memArray_eq (memArray_memPut_ne _ x hp)
    · exact sameArray_memPut_same (hzero ▸ hx)
    · exact readReg_redirect _ _ r
  · exact ⟨_, exec_loadprog_of_inactive (memArray_eq_none_of_not_memPresent hb), raise_fails _ s⟩

/-- Settles O50: being illegal is a matter of the operator code, which bounds the word; either code raises the fault. -/
theorem illegalCodesFail : Obligations.IllegalCodesFail := by
  refine ⟨decodesStandard_illegal14, decodesStandard_illegal15, fun w => ?_, fun s => ?_⟩
  · rw [illegal_iff_opcode, opcode_decode]
    exact (le_bits_31_28_iff w 14).symm
  · exact ⟨⟨_, rfl, raise_fails _ s⟩, _, rfl, raise_fails _ s⟩

/-- Settles O1: the two outcomes of the fetch that the statement names. -/
theorem stepRunsDecodedInstruction : Obligations.StepRunsDecodedInstruction := by
  refine ⟨fun s w => step_of_memRead, fun s hs h0 => ?_⟩
  exact ⟨_, step_of_programAbsent hs (memArray_eq_none_of_not_memPresent h0), raise_fails _ s⟩

end Sys2Proof.Machine
end

section
/-! PROOFS. Family 41_alu_and_move: the ALU and the six instructions that work on registers alone. Each of the six, where it
does not fault, answers `advance (writeReg s a v)` for a value `v`; the frame and what A then reads as are said once, for
every `v`, and what is left per instruction is the value's number. -/

namespace Sys2Proof.Machine

open Sys2Proof.Safety

/-! ### The two tests (41_alu_and_move.md R108) -/

theorem isNonZero_iff (c : Word) : isNonZero c = true ↔ c ≠ 0#32 := bne_iff_ne

theorem fitsByte_iff (c : Word) : fitsByte c = true ↔ c.toNat ≤ 255 := decide_eq_true_iff

/-! ### The values as numbers and bits -/

@[simp] theorem toNat_trunc32 (n : Nat) : (trunc32 n).toNat = n % 2 ^ 32 := BitVec.toNat_ofNat n 32

/-- A quotient is at most its dividend, so it needs no truncation. -/
theorem toNat_trunc32_div (b c : Word) : (trunc32 (b.toNat / c.toNat)).toNat = b.toNat / c.toNat := by
  have hlt : b.toNat / c.toNat < 2 ^ 32 := (Nat.div_le_self _ _).trans_lt b.isLt
  rw [toNat_trunc32, Nat.mod_eq_of_lt hlt]

/-- The immediate is 25 bits wide, so it needs no truncation. -/
theorem toNat_zextImm (imm : Imm) : (zextImm imm).toNat = imm.toNat := by
  have hlt : imm.toNat < 2 ^ 32 := imm.isLt.trans (by decide)
  rw [zextImm, toNat_trunc32, Nat.mod_eq_of_lt hlt]

theorem getLsbD_not_and (b c : Word) {i : Nat} (hi : i < 32) :
    (~~~(b &&& c)).getLsbD i = !(b.getLsbD i && c.getLsbD i) := by
  simp [hi]

/-! ### Division -/

theorem aluDiv_zero (b : Word) : aluDiv b 0#32 = .error .divisionByZero := rfl

theorem aluDiv_of_ne_zero (b : Word) {c : Word} (hc : c ≠ 0#32) :
    aluDiv b c = .ok (trunc32 (b.toNat / c.toNat)) :=
  if_pos ((isNonZero_iff c).mpr hc)

theorem exec_div_zero {a b c : Reg} {s : State} (hc : readReg s c = 0#32) :
    exec (.div a b c) s = .next (raise .divisionByZero s) := by
  simp [exec_div, isNonZero, hc]

theorem exec_div_nonzero {a b c : Reg} {s : State} (hc : readReg s c ≠ 0#32) :
    exec (.div a b c) s =
      .next (advance (writeReg s a (trunc32 ((readReg s b).toNat / (readReg s c).toNat)))) := by
  rw [exec_div, if_pos ((isNonZero_iff _).mpr hc)]

/-! ### Writing one register, then the normal end -/

theorem readReg_advance_writeReg (s : State) (a : Reg) (v : Word) : readReg (advance (writeReg s a v)) a = v := by
  rw [readReg_advance, readReg_writeReg_self]

/-- The frame of every instruction that ends normally with at most one register written. -/
theorem registerFrame_advance_writeReg (s : State) (a : Reg) (v : Word) :
    RegisterFrame [a] s (advance (writeReg s a v)) := by
  refine ⟨fun r hr => ?_, advance_mem _, advance_allocator _, ?_, advance_endsNormal rfl rfl⟩
  · rw [readReg_advance, readReg_writeReg_ne s v (List.ne_of_not_mem_cons hr)]
  · exact ⟨advance_output _, advance_inPos _, advance_script _⟩

theorem writeReg_readReg_self (s : State) (a : Reg) : writeReg s a (readReg s a) = s := by
  simp [writeReg, readReg]

/-- CMOV with a zero condition writes to A what A holds, so that CMOV too is one write, whatever its condition. -/
theorem exec_cmov (a b c : Reg) (s : State) :
    exec (.cmov a b c) s =
      .next (advance (writeReg s a (if readReg s c ≠ 0#32 then readReg s b else readReg s a))) := by
  by_cases hc : readReg s c = 0#32
  · rw [exec_cmov_zero hc, if_neg (not_not.mpr hc), writeReg_readReg_self]
  · rw [exec_cmov_nonzero hc, if_pos hc]

theorem exec_ortho (a : Reg) (imm : Imm) (s : State) :
    exec (.ortho a imm) s = .next (advance (writeReg s a (zextImm imm))) := rfl

/-! ### The canonical words (30_encoding.md R73, R74) -/

/-- The canonical word of the standard layout, by what its operator code contributes to it. -/
theorem encodeS_eq_ofNat {op n : Nat} (h : op * 2 ^ 28 = n) (a b c : Reg) :
    encodeS op a b c = BitVec.ofNat 32 (n + a.val * 64 + b.val * 8 + c.val) := by
  subst h
  rfl

theorem encode_cmov (a b c : Reg) :
    encode (.cmov a b c) = BitVec.ofNat 32 (a.val * 64 + b.val * 8 + c.val) := by
  rw [encode, encodeS_eq_ofNat (Nat.zero_mul _), Nat.zero_add]

theorem encode_ortho (a : Reg) (imm : Imm) :
    encode (.ortho a imm) = BitVec.ofNat 32 (0xD0000000 + a.val * 2 ^ 25 + imm.toNat) := rfl

/-! ### The obligations -/

/-- Settles O34: CMOV is one write of the value its condition selects. -/
theorem cmovMovesOnNonZero : Obligations.CmovMovesOnNonZero := by
  refine ⟨decodesStandard_cmov, fun a b c s => ⟨encode_cmov a b c, _, exec_cmov a b c s, ?_, ?_⟩⟩
  · exact registerFrame_advance_writeReg s a _
  · exact readReg_advance_writeReg s a _

/-- Settles O35: ADD is one write of the truncated sum. -/
theorem addWritesTheSum : Obligations.AddWritesTheSum := by
  refine ⟨decodesStandard_add, fun a b c s => ⟨encodeS_eq_ofNat rfl a b c, _, exec_add a b c s, ?_, ?_⟩⟩
  · exact registerFrame_advance_writeReg s a _
  · rw [readReg_advance_writeReg, toNat_trunc32]

/-- Settles O36: MUL is one write of the truncated product. -/
theorem mulWritesTheLowProduct : Obligations.MulWritesTheLowProduct := by
  refine ⟨decodesStandard_mul, fun a b c s => ⟨encodeS_eq_ofNat rfl a b c, _, exec_mul a b c s, ?_, ?_⟩⟩
  · exact registerFrame_advance_writeReg s a _
  · rw [readReg_advance_writeReg, toNat_trunc32]

/-- Settles O37: by the divisor, one write of the quotient or the fault taken. -/
theorem divWritesTheQuotient : Obligations.DivWritesTheQuotient := by
  refine ⟨decodesStandard_div, encodeS_eq_ofNat rfl, fun a b c s hc => ?_, fun a b c s hc => ?_⟩
  · refine ⟨_, exec_div_nonzero hc, registerFrame_advance_writeReg s a _, ?_⟩
    rw [readReg_advance_writeReg, toNat_trunc32_div]
  · exact ⟨_, exec_div_zero hc, raise_fails _ s⟩

/-- Settles O38: NAND is one write of the complement, read as a number and bit by bit. -/
theorem nandWritesTheComplementedConjunction : Obligations.NandWritesTheComplementedConjunction := by
  refine ⟨decodesStandard_nand, fun a b c s => ⟨encodeS_eq_ofNat rfl a b c, _, exec_nand a b c s, ?_, ?_, ?_⟩⟩
  · exact registerFrame_advance_writeReg s a _
  · rw [readReg_advance_writeReg, BitVec.toNat_not]
  · rw [readReg_advance_writeReg]
    exact fun i => getLsbD_not_and _ _

/-- Settles O39: ORTHO is one write of the immediate, whose 25 bits bound it. -/
theorem orthoLoadsTheImmediate : Obligations.OrthoLoadsTheImmediate := by
  refine ⟨fun w a imm => decode_of_immediateWord, fun a imm s => ⟨encode_ortho a imm, _, exec_ortho a imm s, ?_⟩⟩
  rw [readReg_advance_writeReg, toNat_zextImm]
  exact ⟨registerFrame_advance_writeReg s a _, rfl, Nat.le_of_lt_succ imm.isLt⟩

/-- Settles O32: each function answers the value its equation names, read as a number or bit by bit. -/
theorem aluComputes : Obligations.AluComputes := by
  refine ⟨fun b c => ?_, fun b c => ?_, aluDiv_zero, fun b c hc => ?_, fun b c => ?_, fun c => ?_⟩
  · exact ⟨_, rfl, toNat_trunc32 _⟩
  · exact ⟨_, rfl, toNat_trunc32 _⟩
  · refine ⟨_, aluDiv_of_ne_zero b hc, toNat_trunc32_div b c, ?_⟩
    rw [toNat_trunc32_div]
    exact Nat.div_le_self _ _
  · exact ⟨_, rfl, fun i => getLsbD_not_and b c⟩
  · exact ⟨isNonZero_iff c, fitsByte_iff c⟩

end Sys2Proof.Machine
end

section
/-! PROOFS. Family 42_array_ops: INDEX, AMEND, ALLOC and ABANDON. Each is an attempt of one primitive of the array store,
so each has an equation for the primitive's success and fails as the primitive does. What any instruction does to the store
is said once (`exec_mem_cases`), and from it follows which addresses a step can make active or inactive. -/

namespace Sys2Proof.Machine

open Sys2Proof.Safety

/-! ### The primitives by address and length (20_memory.md R33 to R38) -/

section
variable {m m' : Memory} {a o : Word} {n : Nat}

theorem memPresent_eq_isSome_memLen (m : Memory) (a : Word) : memPresent m a = (memLen m a).isSome := by
  simp [memPresent, memLen]

theorem memPresent_of_memLen (h : memLen m a = some n) : memPresent m a = true := by
  rw [memPresent_eq_isSome_memLen, h, Option.isSome_some]

theorem memPresent_of_memArray_eq_none (h : memArray m a = none) : memPresent m a = false := by
  rw [memPresent, h, Option.isSome_none]

theorem memPresent_congr {a' : Word} (h : memArray m' a' = memArray m a) : memPresent m' a' = memPresent m a := by
  rw [memPresent, memPresent, h]

theorem memRead_of_inside {x : WordArray} (hx : memArray m a = some x) (ho : o.toNat < x.len) :
    memRead m a o = .ok (x.get o.toNat) := by
  rw [memRead_of_active hx, if_neg (Nat.not_le_of_lt ho)]

theorem memRead_of_past (hn : memLen m a = some n) (ho : n ≤ o.toNat) : memRead m a o = .error .offsetOutOfBounds := by
  obtain ⟨x, hx, rfl⟩ := memLen_eq_some.mp hn
  rw [memRead_of_active hx, if_pos ho]

theorem memWrite_of_past (hn : memLen m a = some n) (ho : n ≤ o.toNat) (v : Word) :
    memWrite m a o v = .error .offsetOutOfBounds := by
  obtain ⟨x, hx, rfl⟩ := memLen_eq_some.mp hn
  rw [memWrite_of_active hx, if_pos ho]

theorem exists_memRead_ok (hn : memLen m a = some n) (ho : o.toNat < n) : ∃ v, memRead m a o = .ok v := by
  obtain ⟨x, hx, rfl⟩ := memLen_eq_some.mp hn
  exact ⟨_, memRead_of_inside hx ho⟩

theorem exists_memWrite_ok (hn : memLen m a = some n) (ho : o.toNat < n) (v : Word) :
    ∃ m', memWrite m a o v = .ok m' := by
  obtain ⟨x, hx, rfl⟩ := memLen_eq_some.mp hn
  exact ⟨_, by rw [memWrite_of_active hx, if_neg (Nat.not_le_of_lt ho)]⟩

theorem memPresent_memWrite {v : Word} (h : memWrite m a o v = .ok m') (p : Word) :
    memPresent m' p = memPresent m p := by
  simp only [memPresent_eq_isSome_memLen, memLen_memWrite h]

/-! ### Allocation -/

theorem memLen_memPut_self (m : Memory) (a : Word) (x : WordArray) : memLen (memPut m a x) a = some x.len :=
  memLen_eq_some.mpr ⟨x, memArray_memPut_self m a x, rfl⟩

theorem memRead_memPut_zeros (m : Memory) (a : Word) (ho : o.toNat < n) :
    memRead (memPut m a (WordArray.zeros n)) a o = .ok 0#32 :=
  memRead_of_inside (memArray_memPut_self m a _) ho

/-- Whatever the draw, an allocation that succeeds answers a fresh address and puts a zero array there. -/
theorem memAlloc_ok {d k : Word} (hm : m.wf) (h : memAlloc m d k = .ok (a, m')) :
    a ≠ 0#32 ∧ memArray m a = none ∧ m' = memPut m a (WordArray.zeros k.toNat) := by
  rcases memAlloc_cases hm d k with ⟨b, hb, hfree, e⟩ | ⟨_, e⟩
  · rw [e] at h; cases h; exact ⟨hb, hfree, rfl⟩
  · rw [e] at h; cases h

theorem exists_memAlloc_ok (hm : m.wf) (ha : a ≠ 0#32) (hfree : memPresent m a = false) (d k : Word) :
    ∃ b m', memAlloc m d k = .ok (b, m') := by
  rcases memAlloc_cases hm d k with ⟨b, _, _, e⟩ | ⟨hfull, _⟩
  · exact ⟨b, _, e⟩
  · rw [hfull a ha] at hfree; cases hfree

theorem memAlloc_of_full (hm : m.wf) (hfull : ∀ p, p ≠ 0#32 → memPresent m p = true) (d k : Word) :
    memAlloc m d k = .error .addressSpaceExhausted := by
  rcases memAlloc_cases hm d k with ⟨b, hb, hfree, _⟩ | ⟨_, e⟩
  · exact absurd (hfull b hb) (by rw [memPresent_of_memArray_eq_none hfree]; decide)
  · exact e

/-- The choice is open: the allocation answers the address drawn, where that is not 0 and inactive. -/
theorem memAlloc_of_draw (ha : a ≠ 0#32) (hfree : memPresent m a = false) (k : Word) :
    memAlloc m a k = .ok (a, memPut m a (WordArray.zeros k.toNat)) := by
  simp [memAlloc, chooseAddress_draw ha hfree, memAllocAt, ha, hfree, Except.map]

/-! ### Freeing -/

theorem memFree_of_inactive (h : memArray m a = none) : memFree m a = .error .unallocatedAddress := by
  rw [memFree, h]

theorem exists_memFree_ok (h : memPresent m a = true) : ∃ m', memFree m a = .ok m' := by
  obtain ⟨x, hx⟩ := Option.isSome_iff_exists.mp h
  exact ⟨_, by rw [memFree, hx]⟩

/-- What a successful free leaves at each address. -/
theorem memArray_memFree (hm : m.wf) (h : memFree m a = .ok m') (p : Word) :
    memArray m' p = if a = p then none else memArray m p := by
  cases hx : memArray m a with
  | none => rw [memFree_of_inactive hx] at h; cases h
  | some x => rw [memFree, hx] at h; cases h; exact memArray_del hm a p

theorem memArray_memFree_self (hm : m.wf) (h : memFree m a = .ok m') : memArray m' a = none := by
  rw [memArray_memFree hm h, if_pos rfl]

theorem memArray_memFree_ne (hm : m.wf) (h : memFree m a = .ok m') {p : Word} (hp : p ≠ a) :
    memArray m' p = memArray m p := by
  rw [memArray_memFree hm h, if_neg hp.symm]

/-- Replacing the program touches no other address. -/
theorem memArray_memDupTo0_ne (h : memDupTo0 m a = .ok m') {p : Word} (hp : p ≠ 0#32) :
    memArray m' p = memArray m p := by
  cases hx : memArray m a with
  | none => rw [memDupTo0, hx] at h; cases h
  | some x => rw [memDupTo0, hx] at h; cases h; exact memArray_memPut_ne m x hp

end

/-! ### The array instructions as attempts of a primitive -/

/-- An attempt of what fails takes its fault. -/
theorem attempt_fails {α : Type} {r : Except FaultKind α} {k : FaultKind} (h : r = .error k) (s : State)
    (go : α → State) : ∃ t, attempt r s go = .next t ∧ Fails k s t := by
  subst h
  exact ⟨_, attempt_error k s go, raise_fails k s⟩

section
variable {a b c : Reg} {s : State}

theorem exec_index_ok {v : Word} (h : memRead s.mem (readReg s b) (readReg s c) = .ok v) :
    exec (.index a b c) s = .next (advance (writeReg s a v)) := by
  rw [exec, execIndex, h, attempt_ok]

theorem exec_amend_ok {m : Memory} (h : memWrite s.mem (readReg s a) (readReg s b) (readReg s c) = .ok m) :
    exec (.amend a b c) s = .next (advance { s with mem := m }) := by
  rw [exec, execAmend, h, attempt_ok]

theorem exec_alloc_ok {p : Word} {m : Memory}
    (h : memAlloc s.mem (Config.allocDraw s.allocator (activeAddresses s.mem)) (readReg s c) = .ok (p, m)) :
    exec (.alloc b c) s =
      .next (advance (writeReg { s with mem := m, allocator := s.allocator + 1 } b p)) := by
  rw [exec, execAlloc, h, attempt_ok]

theorem exec_abandon_ok {m : Memory} (h : memFree s.mem (readReg s c) = .ok m) :
    exec (.abandon c) s = .next (advance { s with mem := m }) := by
  rw [exec, execAbandon, h, attempt_ok]

/-! ### Their faults -/

theorem exec_index_unallocated (h : memPresent s.mem (readReg s b) = false) :
    ∃ t, exec (.index a b c) s = .next t ∧ Fails .unallocatedAddress s t :=
  attempt_fails (memRead_of_inactive (memArray_eq_none_of_not_memPresent h) _) s _

theorem exec_index_outOfBounds {n : Nat} (hn : memLen s.mem (readReg s b) = some n) (ho : n ≤ (readReg s c).toNat) :
    ∃ t, exec (.index a b c) s = .next t ∧ Fails .offsetOutOfBounds s t :=
  attempt_fails (memRead_of_past hn ho) s _

theorem exec_amend_unallocated (h : memPresent s.mem (readReg s a) = false) :
    ∃ t, exec (.amend a b c) s = .next t ∧ Fails .unallocatedAddress s t :=
  attempt_fails (memWrite_of_inactive (memArray_eq_none_of_not_memPresent h) _ _) s _

theorem exec_amend_outOfBounds {n : Nat} (hn : memLen s.mem (readReg s a) = some n) (ho : n ≤ (readReg s b).toNat) :
    ∃ t, exec (.amend a b c) s = .next t ∧ Fails .offsetOutOfBounds s t :=
  attempt_fails (memWrite_of_past hn ho _) s _

theorem exec_alloc_exhausted (hm : s.mem.wf) (hfull : ∀ p, p ≠ 0#32 → memPresent s.mem p = true) :
    ∃ t, exec (.alloc b c) s = .next t ∧ Fails .addressSpaceExhausted s t :=
  attempt_fails (memAlloc_of_full hm hfull _ _) s _

theorem exec_abandon_unallocated (h : memPresent s.mem (readReg s c) = false) :
    ∃ t, exec (.abandon c) s = .next t ∧ Fails .unallocatedAddress s t :=
  attempt_fails (memFree_of_inactive (memArray_eq_none_of_not_memPresent h)) s _

/-! ### Their frames -/

/-- An operation that keeps the finger, the engine state and the byte channel has the store frame once it has ended
normally. -/
theorem storeFrame_advance {ws : List Reg} {u : State} (hregs : RegsSameBut ws s u) (hchannel : ChannelSame s u)
    (hpc : u.pc = s.pc) (he : u.engine = s.engine) : StoreFrame ws s (advance u) := by
  refine ⟨fun r hr => (readReg_advance u r).trans (hregs r hr), ?_, advance_endsNormal hpc he⟩
  simpa only [ChannelSame, advance_output, advance_inPos, advance_script] using hchannel

theorem storeFrame_advance_setMem (s : State) (m : Memory) : StoreFrame [] s (advance { s with mem := m }) :=
  storeFrame_advance (fun _ _ => rfl) ⟨rfl, rfl, rfl⟩ rfl rfl

theorem storeFrame_advance_alloc (s : State) (m : Memory) (k : Nat) (b : Reg) (p : Word) :
    StoreFrame [b] s (advance (writeReg { s with mem := m, allocator := k } b p)) :=
  storeFrame_advance (fun _ hr => readReg_writeReg_ne _ p (List.ne_of_not_mem_cons hr)) ⟨rfl, rfl, rfl⟩ rfl rfl

end

/-! ### What an instruction does to the array store -/

/-- Five instructions change the store, each by its primitive; ALLOC leaves the address it drew in its destination. -/
theorem exec_mem_cases {i : Instr} {s t : State} (h : exec i s = .next t) :
    t.mem = s.mem ∨
      (∃ a b c, i = .amend a b c ∧ memWrite s.mem (readReg s a) (readReg s b) (readReg s c) = .ok t.mem) ∨
      (∃ b c d, i = .alloc b c ∧ memAlloc s.mem d (readReg s c) = .ok (readReg t b, t.mem)) ∨
      (∃ c, i = .abandon c ∧ memFree s.mem (readReg s c) = .ok t.mem) ∨
      (∃ b c, i = .loadprog b c ∧ memDupTo0 s.mem (readReg s b) = .ok t.mem) := by
  cases i with
  | cmov a b c => rw [exec_cmov] at h; cases h; simp
  | index a b c =>
    rcases attempt_next h with ⟨k, _, rfl⟩ | ⟨v, _, rfl⟩
    · exact .inl (raise_mem k s)
    · exact .inl (advance_mem _)
  | amend a b c =>
    rcases attempt_next h with ⟨k, _, rfl⟩ | ⟨m, hm, rfl⟩
    · exact .inl (raise_mem k s)
    · rw [advance_mem]; exact .inr (.inl ⟨a, b, c, rfl, hm⟩)
  | add a b c => rw [exec_add] at h; cases h; simp
  | mul a b c => rw [exec_mul] at h; cases h; simp
  | div a b c => rw [exec_div] at h; cases h; left; split <;> simp
  | nand a b c => rw [exec_nand] at h; cases h; simp
  | halt => cases h; exact .inl (halt_mem s)
  | alloc b c =>
    rcases attempt_next h with ⟨k, _, rfl⟩ | ⟨r, hr, rfl⟩
    · exact .inl (raise_mem k s)
    · refine .inr (.inr (.inl ⟨b, c, _, rfl, hr.trans ?_⟩))
      rw [readReg_advance_writeReg, advance_mem, writeReg_mem]
  | abandon c =>
    rcases attempt_next h with ⟨k, _, rfl⟩ | ⟨m, hm, rfl⟩
    · exact .inl (raise_mem k s)
    · rw [advance_mem]; exact .inr (.inr (.inr (.inl ⟨c, rfl, hm⟩)))
  | out c =>
    simp only [exec, execOut] at h
    split at h <;> cases h <;> simp
  | inp c => cases h; simp
  | loadprog b c =>
    rcases execLoadprog_next h with ⟨_, rfl⟩ | ⟨x, hx, _, rfl⟩
    · exact .inl (raise_mem _ s)
    · rw [redirect_mem]; exact .inr (.inr (.inr (.inr ⟨b, c, rfl, by rw [memDupTo0, hx]⟩)))
  | ortho a imm => cases h; simp
  | illegal14 | illegal15 => cases h; exact .inl (raise_mem _ s)

/-- An instruction leaves a non-zero address active or inactive as it was, unless it is an ALLOC that answers the address
or an ABANDON of it. -/
theorem exec_memPresent_cases {i : Instr} {s t : State} {a : Word} (hm : s.mem.wf) (h : exec i s = .next t)
    (ha : a ≠ 0#32) :
    memPresent t.mem a = memPresent s.mem a ∨
      (∃ b c, i = .alloc b c ∧ readReg t b = a ∧ memPresent t.mem a = true) ∨
      (∃ c, i = .abandon c ∧ readReg s c = a ∧ memPresent t.mem a = false) := by
  rcases exec_mem_cases h with hsame | ⟨_, _, _, _, hwrite⟩ | ⟨b, c, d, hi, halloc⟩ | ⟨c, hi, hfree⟩ | ⟨_, _, _, hdup⟩
  · exact .inl (by rw [hsame])
  · exact .inl (memPresent_memWrite hwrite a)
  · obtain ⟨_, _, hput⟩ := memAlloc_ok hm halloc
    by_cases hb : a = readReg t b
    · refine .inr (.inl ⟨b, c, hi, hb.symm, ?_⟩)
      rw [hput, hb, memPresent_of_memLen (memLen_memPut_self _ _ _)]
    · exact .inl (by rw [hput]; exact memPresent_congr (memArray_memPut_ne _ _ hb))
  · by_cases hc : a = readReg s c
    · refine .inr (.inr ⟨c, hi, hc.symm, ?_⟩)
      rw [hc, memPresent_of_memArray_eq_none (memArray_memFree_self hm hfree)]
    · exact .inl (memPresent_congr (memArray_memFree_ne hm hfree hc))
  · exact .inl (memPresent_congr (memArray_memDupTo0_ne hdup ha))

/-- The same of a step: an address that changes was changed by the ALLOC or the ABANDON fetched. -/
theorem step_memPresent_cases {s t : State} {a : Word} (hm : s.mem.wf) (h : step s = .next t) (ha : a ≠ 0#32) :
    memPresent t.mem a = memPresent s.mem a ∨
      (∃ w b c, memRead s.mem 0#32 s.pc = .ok w ∧ decode w = .alloc b c ∧ readReg t b = a ∧
        memPresent t.mem a = true) ∨
      (∃ w c, memRead s.mem 0#32 s.pc = .ok w ∧ decode w = .abandon c ∧ readReg s c = a ∧
        memPresent t.mem a = false) := by
  rcases step_cases h with ⟨_, rfl⟩ | ⟨_, _, rfl⟩ | ⟨_, _, _, _, rfl⟩ | ⟨x, _, hx, hpc, hexec⟩
  · exact .inl rfl
  · exact .inl rfl
  · exact .inl rfl
  · have hfetch := memRead_of_inside hx hpc
    rcases exec_memPresent_cases hm hexec ha with hsame | ⟨b, c, halloc⟩ | ⟨c, habandon⟩
    · exact .inl hsame
    · exact .inr (.inl ⟨_, b, c, hfetch, halloc⟩)
    · exact .inr (.inr ⟨_, c, hfetch, habandon⟩)

/-! ### What each array instruction does where it does not fail -/

section
variable {a b c : Reg} {s : State} {n : Nat}

theorem exec_index_loads (hn : memLen s.mem (readReg s b) = some n) (ho : (readReg s c).toNat < n) :
    ∃ t v, exec (.index a b c) s = .next t ∧ memRead s.mem (readReg s b) (readReg s c) = .ok v ∧ readReg t a = v ∧
      RegisterFrame [a] s t := by
  obtain ⟨v, hv⟩ := exists_memRead_ok hn ho
  exact ⟨_, v, exec_index_ok hv, hv, readReg_advance_writeReg s a v, registerFrame_advance_writeReg s a v⟩

theorem exec_amend_stores (hn : memLen s.mem (readReg s a) = some n) (ho : (readReg s b).toNat < n) :
    ∃ t, exec (.amend a b c) s = .next t ∧ StoreFrame [] s t ∧ t.allocator = s.allocator ∧
      memWrite s.mem (readReg s a) (readReg s b) (readReg s c) = .ok t.mem := by
  obtain ⟨m, hm⟩ := exists_memWrite_ok hn ho (readReg s c)
  exact ⟨_, exec_amend_ok hm, storeFrame_advance_setMem s m, advance_allocator _, by rw [advance_mem, hm]⟩

theorem exec_alloc_allocates {p : Word} (hm : s.mem.wf) (hp : p ≠ 0#32) (hfree : memPresent s.mem p = false) :
    ∃ t, exec (.alloc b c) s = .next t ∧ StoreFrame [b] s t ∧
      memAlloc s.mem (Config.allocDraw s.allocator (activeAddresses s.mem)) (readReg s c) =
        .ok (readReg t b, t.mem) := by
  obtain ⟨q, m, hq⟩ :=
    exists_memAlloc_ok hm hp hfree (Config.allocDraw s.allocator (activeAddresses s.mem)) (readReg s c)
  refine ⟨_, exec_alloc_ok hq, storeFrame_advance_alloc s m _ b q, ?_⟩
  rw [readReg_advance_writeReg, advance_mem, writeReg_mem, hq]

theorem exec_abandon_frees (h : memPresent s.mem (readReg s c) = true) :
    ∃ t, exec (.abandon c) s = .next t ∧ StoreFrame [] s t ∧ t.allocator = s.allocator ∧
      memFree s.mem (readReg s c) = .ok t.mem := by
  obtain ⟨m, hm⟩ := exists_memFree_ok h
  exact ⟨_, exec_abandon_ok hm, storeFrame_advance_setMem s m, advance_allocator _, by rw [advance_mem, hm]⟩

/-- A step that ends normally and leaves no array 0 leaves the machine running, and the next fetch fails (D18). -/
theorem programAbsent_after {t : State} (h : EngineChecked s t) (hs : s.engine = .running)
    (h0 : memArray t.mem 0#32 = none) :
    t.engine = .running ∧ ∃ u, step t = .next u ∧ Fails .programAbsent t u := by
  have hrunning : t.engine = .running :=
    (running_iff_of_engineChecked h hs).mpr fun n hn => by simp [memLen, h0] at hn
  exact ⟨hrunning, _, step_of_programAbsent hrunning h0, raise_fails _ t⟩

end

/-! ### The canonical words (30_encoding.md R73, R74) -/

theorem encode_alloc (b c : Reg) : encode (.alloc b c) = BitVec.ofNat 32 (0x80000000 + b.val * 8 + c.val) := by
  simp [encode, encodeS]

theorem encode_abandon (c : Reg) : encode (.abandon c) = BitVec.ofNat 32 (0x90000000 + c.val) := by
  simp [encode, encodeS]

/-! ### The obligations -/

/-- Settles O21: by what a step does to one non-zero address. -/
theorem onlyAllocActivatesOnlyAbandonFrees : Obligations.OnlyAllocActivatesOnlyAbandonFrees := by
  intro s t a hm h ha
  rcases step_memPresent_cases hm h ha with hsame | ⟨w, b, c, hw, hi, hb, hafter⟩ | ⟨w, c, hw, hi, hc, hafter⟩
  · exact ⟨fun h0 h1 => by simp [hsame, h0] at h1, fun h1 h0 => by simp [hsame, h1] at h0⟩
  · exact ⟨fun _ _ => ⟨w, b, c, hw, hi, hb⟩, fun _ h0 => by simp [hafter] at h0⟩
  · exact ⟨fun _ h1 => by simp [hafter] at h1, fun _ _ => ⟨w, c, hw, hi, hc⟩⟩

/-- Settles O40: the load of the element that MemRead answers, and MemRead's two faults. -/
theorem indexLoadsTheElement : Obligations.IndexLoadsTheElement :=
  ⟨decodesStandard_index, encodeS_eq_ofNat rfl, fun _ _ _ _ _ => exec_index_loads,
    fun _ _ _ _ => exec_index_unallocated, fun _ _ _ _ _ => exec_index_outOfBounds⟩

/-- Settles O41: the store AMEND leaves is MemWrite's, so the laws of a write say what it changes and keeps. -/
theorem amendStoresTheElement : Obligations.AmendStoresTheElement := by
  refine ⟨decodesStandard_amend, encodeS_eq_ofNat rfl, fun a b c s n hm hn ho => ?_,
    fun _ _ _ _ => exec_amend_unallocated, fun _ _ _ _ _ => exec_amend_outOfBounds⟩
  obtain ⟨t, h, hframe, halloc, hwrite⟩ := exec_amend_stores hn ho
  exact ⟨t, h, hframe, halloc, memRead_memWrite_self hm hwrite, fun p q hpq => memRead_memWrite_ne hm hwrite hpq,
    memLen_memWrite hwrite⟩

/-- Settles O42: whatever the draw, MemAlloc puts a zero array at a fresh address or finds none. -/
theorem allocCreatesAFreshZeroArray : Obligations.AllocCreatesAFreshZeroArray := by
  refine ⟨decodesStandard_alloc, encode_alloc, fun b c s hm ⟨p, hp, hfree⟩ => ?_, fun _ _ _ => exec_alloc_exhausted⟩
  obtain ⟨t, h, hframe, halloc⟩ := exec_alloc_allocates hm hp hfree
  obtain ⟨hne, hfresh, hput⟩ := memAlloc_ok hm halloc
  refine ⟨t, h, hframe, hne, memPresent_of_memArray_eq_none hfresh, ?_⟩
  rw [hput]
  exact ⟨memLen_memPut_self _ _ _, fun o => memRead_memPut_zeros _ _, fun q hq =>
    sameArray_of_memArray_eq (memArray_memPut_ne _ _ hq)⟩

/-- Settles O43: the store ABANDON leaves is MemFree's; without array 0 the machine runs on into a failing fetch. -/
theorem abandonRemovesTheArray : Obligations.AbandonRemovesTheArray := by
  refine ⟨decodesStandard_abandon, encode_abandon, fun c s hm hpresent => ?_, fun _ _ => exec_abandon_unallocated⟩
  obtain ⟨t, h, hframe, halloc, hfree⟩ := exec_abandon_frees hpresent
  have hgone := memArray_memFree_self hm hfree
  refine ⟨t, h, hframe, halloc, memPresent_of_memArray_eq_none hgone, fun p hp => ?_, fun hzero hs => ?_⟩
  · exact sameArray_of_memArray_eq (memArray_memFree_ne hm hfree hp)
  · obtain ⟨_, _, _, hchecked⟩ := hframe
    exact programAbsent_after hchecked hs (hzero ▸ hgone)

/-- Settles O44: each cell of the table is what its instruction does to an inactive or an active address. -/
theorem lifeOfAnAddress : Obligations.LifeOfAnAddress := by
  intro s a hm ha
  refine ⟨fun hfree => ⟨?_, ?_, ?_, ?_, ?_⟩, fun n hn => ⟨?_, ?_, ?_, ?_, ?_, ?_, ?_⟩⟩
  · rintro x b c rfl; exact exec_index_unallocated hfree
  · rintro x b c rfl; exact exec_amend_unallocated hfree
  · rintro c rfl; exact exec_abandon_unallocated hfree
  · rintro b c rfl
    exact ⟨_, exec_loadprog_of_inactive (memArray_eq_none_of_not_memPresent hfree), raise_fails _ s⟩
  · exact fun k => ⟨a, _, memAlloc_of_draw ha hfree k⟩
  · rintro x b c rfl ho
    obtain ⟨t, _, h, _, _, hframe⟩ := exec_index_loads (a := x) hn ho
    exact ⟨t, h, hframe⟩
  · rintro x b c rfl ho
    obtain ⟨t, h, hframe, _⟩ := exec_amend_stores (c := c) hn ho
    exact ⟨t, h, hframe⟩
  · rintro x b c rfl ho; exact exec_index_outOfBounds hn ho
  · rintro x b c rfl ho; exact exec_amend_outOfBounds hn ho
  · rintro c rfl
    obtain ⟨t, h, _, _, hfree⟩ := exec_abandon_frees (memPresent_of_memLen hn)
    exact ⟨t, h, memPresent_of_memArray_eq_none (memArray_memFree_self hm hfree)⟩
  · rintro b c rfl h0
    obtain ⟨_, _, hreplaces, _⟩ := loadprogReplacesTheProgram
    obtain ⟨t, h, _, _, hlen, hread, hother, _⟩ := hreplaces b c s h0 (memPresent_of_memLen hn)
    obtain ⟨hkept, _⟩ := hother _ ha
    exact ⟨t, h, hlen.trans hn, hread, hkept.trans hn⟩
  · intro d k m halloc
    obtain ⟨_, hfresh, _⟩ := memAlloc_ok hm halloc
    simp [memLen, hfresh] at hn

end Sys2Proof.Machine
end

section
/-! PROOFS. Family 43_io: OUT and IN. OUT has one equation per side of its guard, and IN has one equation with the
transaction's answer and effect written out. Each ends in `advance`, so its frame is the laws of `advance`. -/

namespace Sys2Proof.Machine

open Sys2Proof.Safety

/-! ### Bytes as Words and back (43_io.md R120, R121) -/

/-- A Word that passes OUT's guard loses nothing by being made a byte. -/
theorem toNat_byteOf {v : Word} (h : v.toNat ≤ 255) : (byteOf v).toNat = v.toNat := by
  rw [byteOf, BitVec.toNat_ofNat, Nat.mod_eq_of_lt (by omega)]

/-- A byte is narrower than a Word, so zero extension keeps its value. -/
theorem toNat_zextByte (b : Byte) : (zextByte b).toNat = b.toNat := by
  have hlt : b.toNat < 2 ^ 32 := b.isLt.trans (by decide)
  rw [zextByte, toNat_trunc32, Nat.mod_eq_of_lt hlt]

/-! ### What OUT and IN answer -/

section
variable {c : Reg} {s : State}

theorem exec_out_of_le (h : (readReg s c).toNat ≤ 255) :
    exec (.out c) s = .next (advance (outByte s (byteOf (readReg s c)))) :=
  if_pos ((fitsByte_iff _).mpr h)

theorem exec_out_of_ge (h : 256 ≤ (readReg s c).toNat) : exec (.out c) s = .next (raise .outputOutOfRange s) :=
  if_neg ((fitsByte_iff _).not.mpr (Nat.not_le_of_lt h))

end

/-- IN is one register write of the answer, made after the transaction is counted; the answer is the script's next one
where there is one, and else the oracle's (log 5). -/
theorem exec_inp (c : Reg) (s : State) :
    exec (.inp c) s =
      .next (advance (writeReg { s with inPos := s.inPos + 1, script := s.script.tail } c
        (answerWord (s.script.head?.getD (Config.input s.inPos))))) := by
  rw [exec, execInp, inByte_eq]

/-! ### The canonical words (30_encoding.md R73, R74) -/

theorem encode_out (c : Reg) : encode (.out c) = BitVec.ofNat 32 (0xA0000000 + c.val) := by
  simp [encode, encodeS]

theorem encode_inp (c : Reg) : encode (.inp c) = BitVec.ofNat 32 (0xB0000000 + c.val) := by
  simp [encode, encodeS]

/-! ### The obligations -/

/-- Settles O45: on either side of the guard at 255, the byte appended and a normal end, or the fault taken. -/
theorem outEmitsTheByte : Obligations.OutEmitsTheByte := by
  refine ⟨decodesStandard_out, encode_out, fun c s hle => ?_, fun c s hge => ?_⟩
  · exact ⟨_, byteOf (readReg s c), exec_out_of_le hle, toNat_byteOf hle, advance_output _,
      fun r _ => readReg_advance _ r, advance_mem _, advance_allocator _, advance_inPos _, advance_script _,
      advance_endsNormal rfl rfl⟩
  · exact ⟨_, exec_out_of_ge hge, raise_fails _ s⟩

/-- Settles O46: IN is one write of the answer's Word after the transaction; the Word is read by cases on the answer. -/
theorem inWritesTheAnswer : Obligations.InWritesTheAnswer := by
  refine ⟨decodesStandard_inp, encode_inp, fun c s => ⟨_, exec_inp c s, ?_, fun r hr => ?_, advance_mem _,
    advance_allocator _, advance_output _, advance_inPos _, advance_script _, advance_endsNormal rfl rfl⟩⟩
  · rw [readReg_advance_writeReg]
    cases s.script.head?.getD (Config.input s.inPos) with
    | byte b => exact toNat_zextByte b
    | eos => rfl
  · exact (readReg_advance _ r).trans (readReg_writeReg_ne _ _ (List.ne_of_not_mem_cons hr))

end Sys2Proof.Machine
end

section
/-! PROOFS. Family 60_exceptions: how address 0 is lost, and what a fault changes. An address can only be lost by an ABANDON
of it (`exec_memPresent_lost`), because every other change of the store puts an array into it. A failed step is the one
`raise` makes (`eq_raise_of_step_failed`). -/

namespace Sys2Proof.Machine

open Sys2Proof.Safety

/-! ### Losing an address (60_exceptions.md R138) -/

/-- Putting an array into the store makes no address inactive. -/
theorem memPresent_memPut_of_memPresent {m : Memory} {p : Word} (h : memPresent m p = true) (a : Word) (x : WordArray) :
    memPresent (memPut m a x) p = true := by
  by_cases hp : p = a
  · rw [hp, memPresent, memArray_memPut_self, Option.isSome_some]
  · rw [memPresent_congr (memArray_memPut_ne m x hp), h]

theorem memPresent_memDupTo0_of_memPresent {m m' : Memory} {a p : Word} (hdup : memDupTo0 m a = .ok m')
    (h : memPresent m p = true) : memPresent m' p = true := by
  cases hx : memArray m a with
  | none => rw [memDupTo0, hx] at hdup; cases hdup
  | some x => rw [memDupTo0, hx] at hdup; cases hdup; exact memPresent_memPut_of_memPresent h _ x

/-- An instruction makes an address inactive, address 0 as any other, only by being an ABANDON of it. -/
theorem exec_memPresent_lost {i : Instr} {s t : State} {a : Word} (hm : s.mem.wf) (h : exec i s = .next t)
    (hbefore : memPresent s.mem a = true) (hafter : memPresent t.mem a = false) :
    ∃ c, i = .abandon c ∧ readReg s c = a := by
  have hlost : memPresent t.mem a ≠ true := by simp [hafter]
  rcases exec_mem_cases h with hsame | ⟨_, _, _, _, hwrite⟩ | ⟨_, _, _, _, halloc⟩ | ⟨c, hi, hfree⟩ | ⟨_, _, _, hdup⟩
  · exact absurd (hsame ▸ hbefore) hlost
  · exact absurd ((memPresent_memWrite hwrite a).trans hbefore) hlost
  · obtain ⟨_, _, hput⟩ := memAlloc_ok hm halloc
    exact absurd (hput ▸ memPresent_memPut_of_memPresent hbefore _ _) hlost
  · by_cases hc : a = readReg s c
    · exact ⟨c, hi, hc.symm⟩
    · exact absurd ((memPresent_congr (memArray_memFree_ne hm hfree hc)).trans hbefore) hlost
  · exact absurd (memPresent_memDupTo0_of_memPresent hdup hbefore) hlost

/-- A step makes an address inactive only by running the ABANDON it fetched. -/
theorem step_memPresent_lost {s t : State} {a : Word} (hm : s.mem.wf) (h : step s = .next t)
    (hbefore : memPresent s.mem a = true) (hafter : memPresent t.mem a = false) :
    ∃ w c, memRead s.mem 0#32 s.pc = .ok w ∧ decode w = .abandon c ∧ readReg s c = a := by
  have hchanged : t.mem ≠ s.mem := fun e => by simp [e, hbefore] at hafter
  rcases step_cases h with ⟨_, rfl⟩ | ⟨_, _, rfl⟩ | ⟨_, _, _, _, rfl⟩ | ⟨x, _, hx, hpc, hexec⟩
  · exact absurd rfl hchanged
  · exact absurd (raise_mem _ s) hchanged
  · exact absurd (halt_mem s) hchanged
  · obtain ⟨c, hi, hc⟩ := exec_memPresent_lost hm hexec hbefore hafter
    exact ⟨_, c, memRead_of_inside hx hpc, hi, hc⟩

/-! ### The obligations -/

/-- Settles O19: only an ABANDON loses an address; as the store changed it did not fail, so it ended through the
end-of-program check, which without array 0 leaves the machine running into a failing fetch. -/
theorem programLostOnlyByAbandon : Obligations.ProgramLostOnlyByAbandon := by
  intro s t hm hs h hbefore hafter
  obtain ⟨w, c, hw, hi, hc⟩ := step_memPresent_lost hm h hbefore hafter
  have hnf : NotFailed t := fun k hk => by
    rw [eq_raise_of_step_failed hs h hk, raise_mem, hbefore] at hafter
    cases hafter
  have hexec : exec (.abandon c) s = .next t := by rw [← hi, ← step_of_memRead hs hw, h]
  have hchecked : EngineChecked s t := exec_engineChecked hexec nofun hnf
  exact ⟨⟨w, c, hw, hi, hc⟩, programAbsent_after hchecked hs (memArray_eq_none_of_not_memPresent hafter)⟩

/-- Settles O22: the only failed state a step of a running machine answers is `raise`'s, and `raise` is a faulted end. -/
theorem faultChangesOnlyTheEngineState : Obligations.FaultChangesOnlyTheEngineState := by
  intro s t k hs h hk
  rw [eq_raise_of_step_failed hs h hk]
  exact raise_fails k s

end Sys2Proof.Machine
end

section
/-! PROOFS. Family 70_reset_and_hazards: the machine a loaded program starts in (70_reset_and_hazards.md R160, R161), and
the absence of an instruction-memory write hazard (R168). The loaded machine's fields are read through the end-of-program
check once each. For R168 a step that ended through that check, and left a Word that MemRead answers at the finger, is
followed by the step that executes that Word (`runs_word_after_check`). -/

namespace Sys2Proof.Machine

open Sys2Proof.Safety

/-! ### The loaded machine, field by field (70_reset_and_hazards.md R160) -/

theorem load_of_length_le {p : List Word} (h : p.length ≤ 2 ^ 32 - 1) : load p = .next (State.ofProgram p) :=
  if_pos (decide_eq_true h)

section
variable (p : List Word)

@[simp] theorem readReg_ofProgram (r : Reg) : readReg (State.ofProgram p) r = 0#32 := by
  rw [State.ofProgram, readReg_endCheck, readReg, Vector.getElem_replicate]

@[simp] theorem ofProgram_pc : (State.ofProgram p).pc = 0#32 := endCheck_pc _
@[simp] theorem ofProgram_mem : (State.ofProgram p).mem = { arrays := [(0, WordArray.ofList p)] } := endCheck_mem _
@[simp] theorem ofProgram_output : (State.ofProgram p).output = [] := endCheck_output _
@[simp] theorem ofProgram_inPos : (State.ofProgram p).inPos = 0 := endCheck_inPos _

/-- Array 0 holds the program, and no other address is active. -/
theorem memArray_ofProgram (a : Word) :
    memArray (State.ofProgram p).mem a = if a = 0#32 then some (WordArray.ofList p) else none := by
  have hzero : 0 = a.toNat ↔ a = 0#32 := by rw [eq_comm, BitVec.toNat_eq]; rfl
  simp [memArray, assocGet, hzero]

/-- The finger 0 is past the end of the empty program and of no other (70_reset_and_hazards.md R163). -/
theorem ofProgram_engine : (State.ofProgram p).engine = if p = [] then .halted else .running := by
  cases p with
  | nil => rfl
  | cons w ws =>
    rw [if_neg (List.cons_ne_nil w ws), State.ofProgram, endCheck_of_inside]
    intro n hn
    cases hn
    exact Nat.succ_pos ws.length

theorem faultRecord_ofProgram : faultRecord (State.ofProgram p) = none := by
  rw [faultRecord, ofProgram_engine]
  by_cases hp : p = []
  · rw [if_pos hp]
  · rw [if_neg hp]

theorem memLen_ofProgram : memLen (State.ofProgram p).mem 0#32 = some p.length :=
  memLen_eq_some.mpr ⟨_, memArray_ofProgram p 0#32, WordArray.len_ofList p⟩

theorem memRead_ofProgram {o : Word} (h : o.toNat < p.length) :
    memRead (State.ofProgram p).mem 0#32 o = .ok p[o.toNat] := by
  rw [memRead_of_inside (memArray_ofProgram p 0#32) h, WordArray.get_ofList, List.getD_eq_getElem p 0#32 h]

end

/-! ### The next fetch (70_reset_and_hazards.md R168) -/

theorem memPresent_of_memRead {m : Memory} {a o v : Word} (h : memRead m a o = .ok v) : memPresent m a = true := by
  obtain ⟨x, hx, _, _⟩ := memRead_ok h
  rw [memPresent, hx, Option.isSome_some]

/-- A running machine whose step went through the end-of-program check, and left a Word at the finger, runs that Word
next: what can be read is inside array 0, so the check did not halt. -/
theorem runs_word_after_check {s t : State} {v : Word} (h : EngineChecked s t) (hs : s.engine = .running)
    (hv : memRead t.mem 0#32 t.pc = .ok v) : t.engine = .running ∧ step t = exec (decode v) t := by
  obtain ⟨x, hx, hpc, _⟩ := memRead_ok hv
  have hrunning : t.engine = .running :=
    (running_iff_of_engineChecked h hs).mpr fun n hn => by
      rw [memLen_eq_some.mpr ⟨x, hx, rfl⟩] at hn; cases hn; exact hpc
  exact ⟨hrunning, step_of_memRead hrunning hv⟩

/-! ### The obligations -/

/-- Settles O12: the LOAD port answers `State.ofProgram`, whose fields and array 0 are as the lemmas above say. -/
theorem loadedMachineState : Obligations.LoadedMachineState := by
  intro p hp
  refine ⟨State.ofProgram p, load_of_length_le hp, readReg_ofProgram p, ofProgram_pc p, ofProgram_engine p,
    faultRecord_ofProgram p, memLen_ofProgram p, fun o => memRead_ofProgram p, fun a ha => ?_, ofProgram_output p,
    ofProgram_inPos p⟩
  exact memPresent_of_memArray_eq_none ((memArray_ofProgram p a).trans (if_neg ha))

/-- Settles O31: AMEND leaves the value stored at the next finger, and LOADPROG leaves the source array's Word at the
target; each ends through the end-of-program check, so the Word left is the Word run. -/
theorem rewrittenInstructionIsExecutedNext : Obligations.RewrittenInstructionIsExecutedNext := by
  refine ⟨fun s w a b c n hinv hs hw hi ha hb hn hin => ?_, fun s w v b c hs hw hi hv => ?_⟩
  · obtain ⟨hwf, _⟩ := hinv
    have hoffset : (readReg s b).toNat < n := by
      rw [hb, BitVec.toNat_add]
      exact (Nat.mod_le _ _).trans_lt hin
    obtain ⟨_, _, hstores, _⟩ := amendStoresTheElement
    obtain ⟨t, h, ⟨_, _, hpc, hchecked⟩, _, hread, _⟩ := hstores a b c s n hwf (ha ▸ hn) hoffset
    rw [ha, hb, ← hpc] at hread
    exact ⟨t, by rw [step_of_memRead hs hw, hi, h], runs_word_after_check hchecked hs hread⟩
  · obtain ⟨_, _, hreplaces, _⟩ := loadprogReplacesTheProgram
    obtain ⟨t, h, hpc, hchecked, _, hread, _⟩ :=
      hreplaces b c s (memPresent_of_memRead hw) (memPresent_of_memRead hv)
    have hnext : memRead t.mem 0#32 t.pc = .ok v := by rw [hpc, hread, hv]
    exact ⟨t, by rw [step_of_memRead hs hw, hi, h], runs_word_after_check hchecked hs hnext⟩

end Sys2Proof.Machine
end

section
/-! PROOFS. Family other: the invariant, terminal states, faults, what no instruction may read or touch, the array store's
primitives, and the program file. What an instruction does to one part of the state (the store, the engine state, the byte
channel) is said once for all instructions; the same of a step and of a run follows. -/

namespace Sys2Proof.Machine

open Sys2Proof.Safety

/-! ### The invariant (10_state.md R29, 00_scope.md R6) -/

/-- A machine that is not running has no finger to keep inside. -/
theorem fingerInside_of_not_running {s : State} (h : s.engine ≠ .running) : FingerInside s := fun hr => absurd hr h

/-- An instruction leaves the finger inside array 0, wherever it was: it stops the machine, or it ends through the
end-of-program check. -/
theorem exec_fingerInside {i : Instr} {s t : State} (h : exec i s = .next t) : FingerInside t := by
  rcases exec_cases h with ⟨k, rfl⟩ | ⟨_, rfl⟩ | ⟨u, _, _, rfl⟩ | ⟨b, c, x, _, _, rfl⟩
  · exact fingerInside_of_not_running nofun
  · exact fingerInside_of_not_running nofun
  · exact endCheck_fingerInside _
  · exact endCheck_fingerInside _

/-- Each of the five instructions that change the store keeps it canonical. -/
theorem exec_mem_wf {i : Instr} {s t : State} (hm : s.mem.wf) (h : exec i s = .next t) : t.mem.wf := by
  rcases exec_mem_cases h with hsame | ⟨_, _, _, _, hwrite⟩ | ⟨_, _, _, _, halloc⟩ | ⟨_, _, hfree⟩ | ⟨_, _, _, hdup⟩
  · exact hsame ▸ hm
  · exact memWrite_wf hm hwrite
  · exact memAlloc_wf hm halloc
  · exact memFree_wf hm hfree
  · exact memDupTo0_wf hm hdup

theorem step_inv {s t : State} (hs : Inv s) (h : step s = .next t) : Inv t := by
  have ⟨hm, _⟩ := hs
  rcases step_cases h with ⟨_, rfl⟩ | ⟨_, _, rfl⟩ | ⟨_, _, _, _, rfl⟩ | ⟨_, _, _, _, hexec⟩
  · exact hs
  · exact ⟨hm, fingerInside_of_not_running nofun⟩
  · exact ⟨hm, fingerInside_of_not_running nofun⟩
  · exact ⟨exec_mem_wf hm hexec, exec_fingerInside hexec⟩

/-! ### The LOAD port (70_reset_and_hazards.md R161) -/

theorem load_of_length_gt {p : List Word} (h : 2 ^ 32 - 1 < p.length) : load p = .refused .programTooLong :=
  if_neg (decide_eq_true_iff.not.mpr (Nat.not_le_of_lt h))

/-- The LOAD port answers a machine only for a program within `PROG_MAX`. -/
theorem load_next {p : List Word} {s : State} (h : load p = .next s) :
    p.length ≤ 2 ^ 32 - 1 ∧ s = State.ofProgram p := by
  rcases Nat.lt_or_ge (2 ^ 32 - 1) p.length with hlong | hfits
  · rw [load_of_length_gt hlong] at h; cases h
  · rw [load_of_length_le hfits] at h; cases h; exact ⟨hfits, rfl⟩

theorem inv_ofProgram {p : List Word} (h : p.length ≤ 2 ^ 32 - 1) : Inv (State.ofProgram p) := by
  refine ⟨?_, endCheck_fingerInside _⟩
  rw [ofProgram_mem]
  exact ofProgram_mem_wf (Nat.lt_of_le_sub_one (Nat.two_pow_pos 32) h)

/-! ### Where a Word can be read -/

/-- Where a Word is read, the offset is not past the end. -/
theorem not_past_of_memRead {m : Memory} {a o v : Word} (h : memRead m a o = .ok v) :
    ¬ ∃ n, memLen m a = some n ∧ n ≤ o.toNat := by
  rintro ⟨n, hn, hle⟩
  rw [memRead_of_past hn hle] at h
  cases h

/-- In a canonical store the offset of a Word that is read is below the greatest Word. -/
theorem succ_lt_of_memRead {m : Memory} {a o v : Word} (hm : m.wf) (h : memRead m a o = .ok v) :
    o.toNat + 1 < 2 ^ 32 := by
  obtain ⟨x, hx, ho, _⟩ := memRead_ok h
  obtain ⟨_, _, hlen⟩ := memArray_wf hm hx
  omega

theorem step_of_past {s : State} {n : Nat} (hr : s.engine = .running) (hn : memLen s.mem 0#32 = some n)
    (hpc : n ≤ s.pc.toNat) : step s = .next (halt s) := by
  obtain ⟨x, hx, rfl⟩ := memLen_eq_some.mp hn
  simp [step, fetch, hr, hx, hpc]

/-! ### Operator codes -/

theorem decode_eq_halt_iff (w : Word) : decode w = .halt ↔ bits w 31 28 = 7 := by
  rw [← opcode_decode]
  cases decode w <;> simp [Instr.opcode]

/-- Every operator code but 13 has a row that takes its operands from the standard fields. -/
theorem exists_decodesStandard {op : Nat} (hlt : op < 16) (hne : op ≠ 13) : ∃ mk, DecodesStandard op mk :=
  match op, hlt, hne with
  | 0, _, _ => ⟨_, decodesStandard_cmov⟩
  | 1, _, _ => ⟨_, decodesStandard_index⟩
  | 2, _, _ => ⟨_, decodesStandard_amend⟩
  | 3, _, _ => ⟨_, decodesStandard_add⟩
  | 4, _, _ => ⟨_, decodesStandard_mul⟩
  | 5, _, _ => ⟨_, decodesStandard_div⟩
  | 6, _, _ => ⟨_, decodesStandard_nand⟩
  | 7, _, _ => ⟨_, decodesStandard_halt⟩
  | 8, _, _ => ⟨_, decodesStandard_alloc⟩
  | 9, _, _ => ⟨_, decodesStandard_abandon⟩
  | 10, _, _ => ⟨_, decodesStandard_out⟩
  | 11, _, _ => ⟨_, decodesStandard_inp⟩
  | 12, _, _ => ⟨_, decodesStandard_loadprog⟩
  | 13, _, hne => absurd rfl hne
  | 14, _, _ => ⟨_, decodesStandard_illegal14⟩
  | 15, _, _ => ⟨_, decodesStandard_illegal15⟩
  | _ + 16, hlt, _ => absurd hlt (Nat.not_lt_of_le (Nat.le_add_left 16 _))

/-- Two words of one row decode alike where the row's instruction is the same for both their selectors. -/
theorem decode_eq_of_row {op : Nat} {mk : Reg → Reg → Reg → Instr} (hrow : DecodesStandard op mk) {w v : Word}
    (hw : bits w 31 28 = op) (hv : bits v 31 28 = op)
    (hmk : mk (selector w 6) (selector w 3) (selector w 0) = mk (selector v 6) (selector v 3) (selector v 0)) :
    decode w = decode v := by
  rw [hrow w (selector w 6) (selector w 3) (selector w 0) ⟨hw, rfl, rfl, rfl⟩, hmk]
  exact (hrow v _ _ _ ⟨hv, rfl, rfl, rfl⟩).symm

theorem selector_eq_selector {w v : Word} {lo : Nat} (h : bits w (lo + 2) lo = bits v (lo + 2) lo) :
    selector w lo = selector v lo := Fin.ext h

/-! ### Which faults an instruction can raise (60_exceptions.md R149) -/

/-- The two ends through the end-of-program check do not fail a machine that has not failed. -/
theorem notFailed_advance {s u : State} (hs : NotFailed s) (he : u.engine = s.engine) : NotFailed (advance u) :=
  fun k hk => hs k (he ▸ (endCheck_engine_failed hk :))

theorem notFailed_redirect {s u : State} (hs : NotFailed s) (he : u.engine = s.engine) (p : Word) :
    NotFailed (redirect u p) :=
  fun k hk => hs k (he ▸ (endCheck_engine_failed hk :))

/-- Where an attempt ends failed and its continuation does not fail, the fault is the transaction's. -/
theorem attempt_failed {α : Type} {r : Except FaultKind α} {s t : State} {go : α → State} {k : FaultKind}
    (h : attempt r s go = .next t) (hgo : ∀ v, NotFailed (go v)) (hk : t.engine = .failed k) : r = .error k := by
  rcases attempt_next h with ⟨k', rfl, rfl⟩ | ⟨v, _, rfl⟩
  · cases hk; rfl
  · exact absurd hk (hgo v k)

theorem memRead_error {m : Memory} {a o : Word} {k : FaultKind} (h : memRead m a o = .error k) :
    k ∈ [.unallocatedAddress, .offsetOutOfBounds] := by
  cases hx : memArray m a with
  | none => rw [memRead_of_inactive hx] at h; cases h; decide
  | some x =>
    rw [memRead_of_active hx] at h
    split at h
    · cases h; decide
    · cases h

theorem memWrite_error {m : Memory} {a o v : Word} {k : FaultKind} (h : memWrite m a o v = .error k) :
    k ∈ [.unallocatedAddress, .offsetOutOfBounds] := by
  cases hx : memArray m a with
  | none => rw [memWrite_of_inactive hx] at h; cases h; decide
  | some x =>
    rw [memWrite_of_active hx] at h
    split at h
    · cases h; decide
    · cases h

/-- An allocation fails in one way only, and only where no non-zero address is left (20_memory.md R37, D7). -/
theorem memAlloc_error {m : Memory} {d n : Word} {k : FaultKind} (hm : m.wf) (h : memAlloc m d n = .error k) :
    k = .addressSpaceExhausted ∧ ∀ a, a ≠ 0#32 → memPresent m a = true := by
  rcases memAlloc_cases hm d n with ⟨_, _, _, e⟩ | ⟨hfull, e⟩
  · rw [e] at h; cases h
  · rw [e] at h; cases h; exact ⟨rfl, hfull⟩

theorem memFree_error {m : Memory} {a : Word} {k : FaultKind} (h : memFree m a = .error k) :
    k = .unallocatedAddress := by
  cases hx : memArray m a with
  | none => rw [memFree_of_inactive hx] at h; cases h; rfl
  | some x => rw [memFree, hx] at h; cases h

theorem aluDiv_error {b c : Word} {k : FaultKind} (h : aluDiv b c = .error k) : k = .divisionByZero := by
  by_cases hc : c = 0#32
  · rw [hc, aluDiv_zero] at h; cases h; rfl
  · rw [aluDiv_of_ne_zero b hc] at h; cases h

theorem exec_failed_mem_mayRaise {i : Instr} {s t : State} {k : FaultKind} (hm : s.mem.wf) (hs : NotFailed s)
    (h : exec i s = .next t) (hk : t.engine = .failed k) : k ∈ mayRaise i := by
  cases i with
  | cmov a b c => rw [exec_cmov] at h; cases h; exact absurd hk (notFailed_advance hs (by rfl) k)
  | index a b c => exact memRead_error (attempt_failed h (fun _ => notFailed_advance hs rfl) hk)
  | amend a b c => exact memWrite_error (attempt_failed h (fun _ => notFailed_advance hs rfl) hk)
  | add a b c => rw [exec_add] at h; cases h; exact absurd hk (notFailed_advance hs (by rfl) k)
  | mul a b c => rw [exec_mul] at h; cases h; exact absurd hk (notFailed_advance hs (by rfl) k)
  | div a b c => exact List.mem_singleton.mpr (aluDiv_error (attempt_failed h (fun _ => notFailed_advance hs rfl) hk))
  | nand a b c => rw [exec_nand] at h; cases h; exact absurd hk (notFailed_advance hs (by rfl) k)
  | halt => cases h; cases hk
  | alloc b c =>
    have hfails := attempt_failed h (fun _ => notFailed_advance hs rfl) hk
    obtain ⟨hkind, _⟩ := memAlloc_error hm hfails
    exact List.mem_singleton.mpr hkind
  | abandon c => exact List.mem_singleton.mpr (memFree_error (attempt_failed h (fun _ => notFailed_advance hs rfl) hk))
  | out c =>
    rcases Nat.lt_or_ge 255 (readReg s c).toNat with hbig | hfits
    · rw [exec_out_of_ge hbig] at h; cases h; cases hk; exact List.mem_singleton_self _
    · rw [exec_out_of_le hfits] at h; cases h; exact absurd hk (notFailed_advance hs (by rfl) k)
  | inp c => rw [exec_inp] at h; cases h; exact absurd hk (notFailed_advance hs (by rfl) k)
  | loadprog b c =>
    rcases execLoadprog_next h with ⟨_, rfl⟩ | ⟨x, _, _, rfl⟩
    · cases hk; exact List.mem_singleton_self _
    · exact absurd hk (notFailed_redirect hs (by rfl) _ k)
  | ortho a imm => cases h; exact absurd hk (notFailed_advance hs (by rfl) k)
  | illegal14 | illegal15 => cases h; cases hk; decide

/-- Where a step of a running machine fails, it failed at the fetch, or by the instruction fetched. -/
theorem step_failed_cases {s t : State} {k : FaultKind} (hm : s.mem.wf) (hs : s.engine = .running)
    (h : step s = .next t) (hk : t.engine = .failed k) :
    (memPresent s.mem 0#32 = false ∧ k = .programAbsent) ∨
      ∃ w, memRead s.mem 0#32 s.pc = .ok w ∧ k ∈ mayRaise (decode w) := by
  have hnf : NotFailed s := fun k e => by rw [hs] at e; cases e
  rcases step_cases h with ⟨hne, _⟩ | ⟨_, hx, rfl⟩ | ⟨x, _, _, _, rfl⟩ | ⟨x, _, hx, hpc, hexec⟩
  · exact absurd hs hne
  · cases hk; exact .inl ⟨memPresent_of_memArray_eq_none hx, rfl⟩
  · cases hk
  · exact .inr ⟨_, memRead_of_inside hx hpc, exec_failed_mem_mayRaise hm hnf hexec hk⟩

/-- A fault that no row of the table lists, other than the fetch's, is raised by no step. -/
theorem step_never_fails_with {s t : State} {k : FaultKind} (hfetch : k ≠ .programAbsent) (hrow : ∀ i, k ∉ mayRaise i)
    (hm : s.mem.wf) (hs : NotFailed s) (h : step s = .next t) : t.engine ≠ .failed k := by
  intro hk
  by_cases hr : s.engine = .running
  · rcases step_failed_cases hm hr h hk with ⟨_, e⟩ | ⟨w, _, hmem⟩
    · exact hfetch e
    · exact hrow _ hmem
  · rw [step_of_not_running hr] at h; cases h; exact hs k hk

theorem zeroAddressAllocation_not_mem_mayRaise (i : Instr) : .zeroAddressAllocation ∉ mayRaise i := by
  cases i <;> simp [mayRaise]

theorem reallocationOfActiveAddress_not_mem_mayRaise (i : Instr) : .reallocationOfActiveAddress ∉ mayRaise i := by
  cases i <;> simp [mayRaise]

theorem exec_illegal {i : Instr} (h : 14 ≤ i.opcode) (s : State) :
    exec i s = .next (raise .unimplementedOperator s) := by
  rcases (illegal_iff_opcode i).mpr h with rfl | rfl <;> rfl

/-! ### Two states that differ in the finger and the engine state (10_state.md R14) -/

/-- The two states agree in registers, store, bookkeeping and byte channel. -/
def SameData (u t : State) : Prop :=
  u.regs = t.regs ∧ u.mem = t.mem ∧ u.allocator = t.allocator ∧ u.output = t.output ∧ u.inPos = t.inPos ∧
    u.script = t.script

theorem sameData_withPc (s : State) (p : Word) : SameData { s with pc := p } s := ⟨rfl, rfl, rfl, rfl, rfl, rfl⟩

theorem sameData_raise_withPc (k : FaultKind) (s : State) (p : Word) : SameData (raise k { s with pc := p }) (raise k s) :=
  ⟨rfl, rfl, rfl, rfl, rfl, rfl⟩

theorem SameData.advance {u t : State} (h : SameData u t) : SameData (advance u) (advance t) := by
  simpa only [SameData, advance_regs, advance_mem, advance_allocator, advance_output, advance_inPos, advance_script]
    using h

theorem SameData.redirect {u t : State} (h : SameData u t) (p : Word) : SameData (redirect u p) (redirect t p) := by
  simpa only [SameData, redirect_regs, redirect_mem, redirect_allocator, redirect_output, redirect_inPos,
    redirect_script] using h

/-- The same transaction from another finger succeeds or fails alike, and what goes on from it decides the rest. -/
theorem attempt_withPc {α : Type} {r : Except FaultKind α} {s t : State} {p : Word} {go go' : α → State}
    (h : attempt r s go = .next t) (hgo : ∀ v, SameData (go' v) (go v)) :
    ∃ u, attempt r { s with pc := p } go' = .next u ∧ SameData u t := by
  rcases attempt_next h with ⟨k, rfl, rfl⟩ | ⟨v, rfl, rfl⟩
  · exact ⟨_, rfl, sameData_raise_withPc k s p⟩
  · exact ⟨_, rfl, hgo v⟩

theorem execLoadprog_withPc {b c : Reg} {s t : State} {p : Word} (h : execLoadprog b c s = .next t) :
    ∃ u, execLoadprog b c { s with pc := p } = .next u ∧ SameData u t := by
  rcases execLoadprog_next h with ⟨hx, rfl⟩ | ⟨x, hx, h0, rfl⟩
  · exact ⟨_, exec_loadprog_of_inactive (s := { s with pc := p }) hx, sameData_raise_withPc _ s p⟩
  · refine ⟨_, exec_loadprog_of_active (s := { s with pc := p }) h0 hx, SameData.redirect ?_ _⟩
    exact sameData_withPc { s with mem := memPut s.mem 0#32 x } p

/-- Executed from another finger, an instruction answers a state with the same data. -/
theorem exec_withPc {i : Instr} {s t : State} (h : exec i s = .next t) (p : Word) :
    ∃ u, exec i { s with pc := p } = .next u ∧ SameData u t := by
  have hadvance : ∀ s' : State, SameData (advance { s' with pc := p }) (advance s') := fun s' =>
    (sameData_withPc s' p).advance
  cases i with
  | cmov a b c => rw [exec_cmov] at h ⊢; cases h; exact ⟨_, rfl, hadvance (writeReg s a _)⟩
  | index a b c => exact attempt_withPc h fun v => hadvance (writeReg s a v)
  | amend a b c => exact attempt_withPc h fun m => hadvance { s with mem := m }
  | add a b c => rw [exec_add] at h ⊢; cases h; exact ⟨_, rfl, hadvance (writeReg s a _)⟩
  | mul a b c => rw [exec_mul] at h ⊢; cases h; exact ⟨_, rfl, hadvance (writeReg s a _)⟩
  | div a b c => exact attempt_withPc h fun v => hadvance (writeReg s a v)
  | nand a b c => rw [exec_nand] at h ⊢; cases h; exact ⟨_, rfl, hadvance (writeReg s a _)⟩
  | halt => cases h; exact ⟨_, rfl, rfl, rfl, rfl, rfl, rfl, rfl⟩
  | alloc b c =>
    exact attempt_withPc h fun r => hadvance (writeReg { s with mem := r.2, allocator := s.allocator + 1 } b r.1)
  | abandon c => exact attempt_withPc h fun m => hadvance { s with mem := m }
  | out c =>
    rcases Nat.lt_or_ge 255 (readReg s c).toNat with hbig | hfits
    · rw [exec_out_of_ge hbig] at h; cases h
      exact ⟨_, exec_out_of_ge (s := { s with pc := p }) hbig, sameData_raise_withPc _ s p⟩
    · rw [exec_out_of_le hfits] at h; cases h
      exact ⟨_, exec_out_of_le (s := { s with pc := p }) hfits, hadvance (outByte s _)⟩
  | inp c =>
    rw [exec_inp] at h ⊢; cases h
    exact ⟨_, rfl, hadvance (writeReg { s with inPos := s.inPos + 1, script := s.script.tail } c _)⟩
  | loadprog b c => exact execLoadprog_withPc h
  | ortho a imm => cases h; exact ⟨_, rfl, hadvance (writeReg s a _)⟩
  | illegal14 | illegal15 => cases h; exact ⟨_, rfl, sameData_raise_withPc _ s p⟩

/-! ### The byte channel (43_io.md R122 to R124) -/

theorem channelSame_advance {s u : State} (h : ChannelSame s u) : ChannelSame s (advance u) := by
  simpa only [ChannelSame, advance_output, advance_inPos, advance_script] using h

theorem attempt_channelSame {α : Type} {r : Except FaultKind α} {s t : State} {go : α → State}
    (h : attempt r s go = .next t) (hgo : ∀ v, ChannelSame s (go v)) : ChannelSame s t := by
  rcases attempt_next h with ⟨k, _, rfl⟩ | ⟨v, _, rfl⟩
  · exact ⟨rfl, rfl, rfl⟩
  · exact hgo v

/-- What an instruction does to the byte channel: nothing, or it is an OUT that emits one byte, or it is an IN that makes
one transaction. -/
theorem exec_channel_cases {i : Instr} {s t : State} (h : exec i s = .next t) :
    ChannelSame s t ∨
      (∃ c b, i = .out c ∧ b.toNat = (readReg s c).toNat ∧ t.output = s.output ++ [b] ∧ t.inPos = s.inPos ∧
        t.script = s.script) ∨
      (∃ c, i = .inp c ∧ t.output = s.output ∧ t.inPos = s.inPos + 1 ∧ t.script = s.script.tail) := by
  have hsame : ChannelSame s s := ⟨rfl, rfl, rfl⟩
  cases i with
  | cmov a b c => rw [exec_cmov] at h; cases h; exact .inl (channelSame_advance hsame)
  | index a b c => exact .inl (attempt_channelSame h fun _ => channelSame_advance hsame)
  | amend a b c => exact .inl (attempt_channelSame h fun _ => channelSame_advance hsame)
  | add a b c => cases h; exact .inl (channelSame_advance hsame)
  | mul a b c => cases h; exact .inl (channelSame_advance hsame)
  | div a b c => exact .inl (attempt_channelSame h fun _ => channelSame_advance hsame)
  | nand a b c => cases h; exact .inl (channelSame_advance hsame)
  | halt => cases h; exact .inl hsame
  | alloc b c => exact .inl (attempt_channelSame h fun _ => channelSame_advance hsame)
  | abandon c => exact .inl (attempt_channelSame h fun _ => channelSame_advance hsame)
  | out c =>
    rcases Nat.lt_or_ge 255 (readReg s c).toNat with hbig | hfits
    · rw [exec_out_of_ge hbig] at h; cases h; exact .inl hsame
    · rw [exec_out_of_le hfits] at h; cases h
      exact .inr (.inl ⟨c, _, rfl, toNat_byteOf hfits, advance_output _, advance_inPos _, advance_script _⟩)
  | inp c =>
    rw [exec_inp] at h; cases h
    exact .inr (.inr ⟨c, rfl, advance_output _, advance_inPos _, advance_script _⟩)
  | loadprog b c =>
    rcases execLoadprog_next h with ⟨_, rfl⟩ | ⟨x, _, _, rfl⟩
    · exact .inl hsame
    · exact .inl ⟨redirect_output _ _, redirect_inPos _ _, redirect_script _ _⟩
  | ortho a imm => cases h; exact .inl (channelSame_advance hsame)
  | illegal14 | illegal15 => cases h; exact .inl hsame

/-- The trace after an instruction begins with the trace before it. -/
theorem exec_output_grows {i : Instr} {s t : State} (h : exec i s = .next t) : s.output <+: t.output := by
  rcases exec_channel_cases h with ⟨hout, _⟩ | ⟨_, b, _, _, hout, _⟩ | ⟨_, _, hout, _⟩
  · rw [hout]
  · exact ⟨[b], hout.symm⟩
  · rw [hout]

theorem step_output_grows {s t : State} (h : step s = .next t) : s.output <+: t.output := by
  rcases step_cases h with ⟨_, rfl⟩ | ⟨_, _, rfl⟩ | ⟨_, _, _, _, rfl⟩ | ⟨_, _, _, _, hexec⟩
  · exact ⟨[], List.append_nil _⟩
  · exact ⟨[], List.append_nil _⟩
  · exact ⟨[], List.append_nil _⟩
  · exact exec_output_grows hexec

theorem run_output_grows {n : Nat} {s t : State} (h : Host.Core.run core n s = .next t) : s.output <+: t.output := by
  induction n generalizing s with
  | zero => cases h; exact ⟨[], List.append_nil _⟩
  | succ n ih =>
    obtain ⟨u, hstep, hrun⟩ := run_cases h
    exact (step_output_grows hstep).trans (ih hrun)

/-! ### The array store's primitives (20_memory.md R37 to R40) -/

theorem memAllocAt_of_free {m : Memory} {a : Word} (ha : a ≠ 0#32) (hfree : memArray m a = none) (n : Word) :
    memAllocAt m a n = .ok (memPut m a (WordArray.zeros n.toNat)) := by
  rw [memAllocAt, if_neg ha, if_neg (by rw [memPresent_of_memArray_eq_none hfree]; decide)]

/-- An all-zero array at one address, every other array unchanged: what an allocation leaves. -/
theorem memPut_zeros_spec (m : Memory) (a n : Word) :
    memLen (memPut m a (WordArray.zeros n.toNat)) a = some n.toNat ∧
      (∀ o : Word, o.toNat < n.toNat → memRead (memPut m a (WordArray.zeros n.toNat)) a o = .ok 0#32) ∧
      ∀ p, p ≠ a → SameArray m (memPut m a (WordArray.zeros n.toNat)) p :=
  ⟨memLen_memPut_self m a _, fun _ => memRead_memPut_zeros m a, fun _ hp =>
    sameArray_of_memArray_eq (memArray_memPut_ne m _ hp)⟩

/-- With rising keys, listing a value where it is listed already changes nothing. -/
theorem assocPut_of_assocGet {α : Type} {k : Nat} {v : α} {l : List (Nat × α)} (hr : Rising l)
    (h : assocGet k l = some v) : assocPut k v l = l := by
  induction l with
  | nil => cases h
  | cons q t ih =>
    obtain ⟨a, x⟩ := q
    obtain ⟨habove, hrest⟩ := List.pairwise_cons.mp hr
    rw [assocGet] at h
    rw [assocPut]
    by_cases ha : a = k
    · rw [if_pos ha] at h
      cases h
      rw [if_neg (by omega), if_pos ha, ha]
    · rw [if_neg ha] at h
      have hlt : a < k := habove _ (assocGet_mem h)
      rw [if_neg (Nat.lt_asymm hlt), if_neg ha, ih hrest h]

theorem memPut_of_memArray {m : Memory} {a : Word} {x : WordArray} (hm : m.wf) (hx : memArray m a = some x) :
    memPut m a x = m := by
  obtain ⟨hrising, _⟩ := hm
  rw [memPut, assocPut_of_assocGet hrising hx]

theorem memDupTo0_of_active {m : Memory} {a : Word} {x : WordArray} (hx : memArray m a = some x) :
    memDupTo0 m a = .ok (memPut m 0#32 x) := by
  rw [memDupTo0, hx]

theorem memDupTo0_of_inactive {m : Memory} {a : Word} (hx : memArray m a = none) :
    memDupTo0 m a = .error .unallocatedAddress := by
  rw [memDupTo0, hx]

theorem memDupTo0_ok {m m' : Memory} {a : Word} (h : memDupTo0 m a = .ok m') :
    ∃ x, memArray m a = some x ∧ m' = memPut m 0#32 x := by
  cases hx : memArray m a with
  | none => rw [memDupTo0_of_inactive hx] at h; cases h
  | some x => rw [memDupTo0_of_active hx] at h; cases h; exact ⟨x, rfl, rfl⟩

/-- A write to one array leaves every other array alone. -/
theorem sameArray_memWrite_ne {m m' : Memory} {a o v p : Word} (h : memWrite m a o v = .ok m') (hp : p ≠ a) :
    SameArray m m' p := by
  obtain ⟨x, _, _, rfl⟩ := memWrite_ok h
  exact sameArray_of_memArray_eq (memArray_memPut_ne m _ hp)

/-! ### The program file (20_memory.md R42) -/

theorem toNat_append_byte {n : Nat} (x : BitVec n) (b : Byte) : (x ++ b).toNat = x.toNat * 2 ^ 8 + b.toNat := by
  rw [BitVec.toNat_append, ← Nat.shiftLeft_add_eq_or_of_lt b.isLt, Nat.shiftLeft_eq]

theorem wordOfFileBytes_eq_append (b0 b1 b2 b3 : Byte) : wordOfFileBytes b0 b1 b2 b3 = b0 ++ b1 ++ b2 ++ b3 := by
  apply BitVec.eq_of_toNat_eq
  have h0 := b0.isLt
  have h1 := b1.isLt
  have h2 := b2.isLt
  have h3 := b3.isLt
  rw [wordOfFileBytes, BitVec.toNat_ofNat]
  simp only [toNat_append_byte]
  omega

/-- The four bytes of a Word, highest first, are read as the Word. -/
theorem wordOfFileBytes_bytes (w : Word) :
    wordOfFileBytes (w.extractLsb' 24 8) (w.extractLsb' 16 8) (w.extractLsb' 8 8) (w.extractLsb' 0 8) = w := by
  have hjoin : ∀ lo len, w.extractLsb' (lo + 8) len ++ w.extractLsb' lo 8 = w.extractLsb' lo (len + 8) := fun _ _ =>
    BitVec.extractLsb'_append_extractLsb'_eq_extractLsb' rfl
  rw [wordOfFileBytes_eq_append, hjoin 16, hjoin 8, hjoin 0]
  exact BitVec.extractLsb'_eq_self

theorem wordsOfFile_cons (b0 b1 b2 b3 : Byte) (rest : List Byte) :
    wordsOfFile (b0 :: b1 :: b2 :: b3 :: rest) = (wordsOfFile rest).map (wordOfFileBytes b0 b1 b2 b3 :: ·) := rfl

theorem wordsOfFile_flatMap_bytes (p : List Word) :
    wordsOfFile (p.flatMap fun w => [w.extractLsb' 24 8, w.extractLsb' 16 8, w.extractLsb' 8 8, w.extractLsb' 0 8]) =
      some p := by
  induction p with
  | nil => rfl
  | cons w ws ih =>
    simp only [List.flatMap_cons, List.cons_append, List.nil_append, wordsOfFile_cons, ih, wordOfFileBytes_bytes,
      Option.map_some]

/-! ### The ALU as Word arithmetic (41_alu_and_move.md R108) -/

theorem aluAdd_eq (b c : Word) : aluAdd b c = .ok (b + c) := by
  rw [aluAdd, trunc32, BitVec.add_def]

theorem aluNand_eq (b c : Word) : aluNand b c = .ok (~~~(b &&& c)) := rfl

theorem aluNand_self (b : Word) : aluNand b b = .ok (~~~b) := by rw [aluNand_eq, BitVec.and_self]

/-! ### The obligations -/

/-- Settles O18: a step keeps the state, stops the machine with the store unchanged, or executes an instruction, which
keeps the store canonical and ends through the end-of-program check. -/
theorem stepKeepsInvariant : Obligations.StepKeepsInvariant := fun _ _ => step_inv

/-- Settles O4: no step leaves a state that is not running. -/
theorem terminalStatesNeverChange : Obligations.TerminalStatesNeverChange := fun _ => run_of_not_running

/-- Settles O5: after HALT the Word fetched is still at the finger, and after the end-of-program check the finger is past
the end; no Word is read past the end, so the two exclude each other. -/
theorem haltedTellsItsCause : Obligations.HaltedTellsItsCause := by
  intro s t w hs hw h ht
  rw [step_of_memRead hs hw] at h
  by_cases hi : decode w = .halt
  · rw [hi] at h
    cases h
    have hinside : ¬ ∃ n, memLen (halt s).mem 0#32 = some n ∧ n ≤ (halt s).pc.toNat := not_past_of_memRead hw
    exact ⟨iff_of_true hi ⟨w, hw, (decode_eq_halt_iff w).mp hi⟩, iff_of_false (not_not.mpr hi) hinside⟩
  · have hnf : NotFailed t := fun k hk => by rw [ht] at hk; cases hk
    have hpast := (halted_iff_of_engineChecked (exec_engineChecked h hi hnf) hs).mp ht
    exact ⟨iff_of_false hi fun ⟨_, hv, _⟩ => not_past_of_memRead hv hpast, iff_of_true hi hpast⟩

/-- Settles O9: the row of the operator code names the selectors the instruction depends on. -/
theorem ignoredBitsChangeNothing : Obligations.IgnoredBitsChangeNothing := by
  intro w v hop h13
  refine ⟨fun ha hb hc => ?_, fun hmem hb hc => ?_, fun hmem hc => ?_, fun hmem => ?_⟩
  · obtain ⟨mk, hrow⟩ := exists_decodesStandard (bits_lt w 31 28) h13
    refine decode_eq_of_row hrow rfl hop.symm ?_
    rw [selector_eq_selector (lo := 6) ha, selector_eq_selector (lo := 3) hb, selector_eq_selector (lo := 0) hc]
  · have hb' := selector_eq_selector (lo := 3) hb
    have hc' := selector_eq_selector (lo := 0) hc
    simp only [List.mem_cons, List.not_mem_nil, or_false] at hmem
    rcases hmem with h | h
    · exact decode_eq_of_row decodesStandard_alloc h (hop ▸ h) (by rw [hb', hc'])
    · exact decode_eq_of_row decodesStandard_loadprog h (hop ▸ h) (by rw [hb', hc'])
  · have hc' := selector_eq_selector (lo := 0) hc
    simp only [List.mem_cons, List.not_mem_nil, or_false] at hmem
    rcases hmem with h | h | h
    · exact decode_eq_of_row decodesStandard_abandon h (hop ▸ h) (by rw [hc'])
    · exact decode_eq_of_row decodesStandard_out h (hop ▸ h) (by rw [hc'])
    · exact decode_eq_of_row decodesStandard_inp h (hop ▸ h) (by rw [hc'])
  · simp only [List.mem_cons, List.not_mem_nil, or_false] at hmem
    rcases hmem with h | h | h
    · exact decode_eq_of_row decodesStandard_halt h (hop ▸ h) rfl
    · exact decode_eq_of_row decodesStandard_illegal14 h (hop ▸ h) rfl
    · exact decode_eq_of_row decodesStandard_illegal15 h (hop ▸ h) rfl

/-- Settles O15: four bytes are read as their concatenation, and the four bytes of a Word concatenate to the Word. -/
theorem programFileIsBigEndian : Obligations.ProgramFileIsBigEndian :=
  ⟨wordsOfFile_flatMap_bytes, rfl, fun b0 b1 b2 b3 rest =>
    ⟨wordOfFileBytes_eq_append b0 b1 b2 b3, wordsOfFile_cons b0 b1 b2 b3 rest⟩⟩

/-- Settles O17: the LOAD port answers the machine of a program within the bound. -/
theorem invariantAfterLoad : Obligations.InvariantAfterLoad := by
  intro p s h
  obtain ⟨hlen, rfl⟩ := load_next h
  exact inv_ofProgram hlen

/-- Settles O20: an array of at most `2^32 - 1` Words has no Word at the greatest offset. -/
theorem fingerIncrementNeverWraps : Obligations.FingerIncrementNeverWraps := by
  intro s w hs _ hw
  obtain ⟨hm, _⟩ := hs
  have hlt := succ_lt_of_memRead hm hw
  rw [BitVec.toNat_add]
  exact Nat.mod_eq_of_lt hlt

/-- Settles O23: an instruction's fault is that of the transaction it attempts, and a step's is the fetch's or the
instruction's. -/
theorem faultsEachInstructionCanRaise : Obligations.FaultsEachInstructionCanRaise :=
  ⟨fun _ _ _ _ => exec_failed_mem_mayRaise, fun _ _ _ => step_failed_cases⟩

/-- Settles O24: neither fault is in the table of what a step can raise. -/
theorem allocationFaultsAreUnreachable : Obligations.AllocationFaultsAreUnreachable := fun _ _ hm hs h =>
  ⟨step_never_fails_with nofun zeroAddressAllocation_not_mem_mayRaise hm hs h,
    step_never_fails_with nofun reallocationOfActiveAddress_not_mem_mayRaise hm hs h⟩

/-- Settles O25: each condition, where it is the first met, is the one fault the step or the instruction takes. -/
theorem faultPriority : Obligations.FaultPriority := by
  refine ⟨fun s hs h0 => ?_, fun s w hs hw hop => ?_, fun _ _ _ _ => exec_index_unallocated,
    fun _ _ _ _ _ => exec_index_outOfBounds, fun _ _ _ _ => exec_amend_unallocated,
    fun _ _ _ _ _ => exec_amend_outOfBounds⟩
  · exact ⟨_, step_of_programAbsent hs (memArray_eq_none_of_not_memPresent h0), raise_fails _ s⟩
  · have hillegal : 14 ≤ (decode w).opcode := by rwa [opcode_decode]
    exact ⟨_, (step_of_memRead hs hw).trans (exec_illegal hillegal s), raise_fails _ s⟩

/-- Settles O28: by cases on the instruction, whose operands and transactions do not mention the finger. -/
theorem noInstructionReadsTheFinger : Obligations.NoInstructionReadsTheFinger := fun _ _ _ p h => exec_withPc h p

/-- Settles O29: by what an instruction does to the byte channel. -/
theorem onlyOutEmitsOnlyInConsumes : Obligations.OnlyOutEmitsOnlyInConsumes := by
  intro i s t h
  rcases exec_channel_cases h with ⟨hout, hin⟩ | ⟨c, b, hi, hb, hout, hin⟩ | ⟨c, hi, hout, hpos, hscript⟩
  · exact ⟨.inl hout, .inl hin⟩
  · exact ⟨.inr ⟨c, b, hi, hout, hb⟩, .inl hin⟩
  · exact ⟨.inl hout, .inr ⟨c, hi, hpos, hscript, hout⟩⟩

/-- Settles O30: every step only adds to the trace, so by induction on its length every run does. -/
theorem emittedBytesAreNeverTakenBack : Obligations.EmittedBytesAreNeverTakenBack := by
  intro n s t h
  obtain ⟨later, hlater⟩ := run_output_grows h
  exact ⟨later, hlater.symm⟩

/-- Settles O52: whatever the draw, the allocation puts a zero array at a fresh address or finds no address left. -/
theorem allocationIsFreshForEveryDraw : Obligations.AllocationIsFreshForEveryDraw := by
  intro m d n hm
  refine ⟨fun a m' h => ?_, ⟨fun h => ?_, fun hfull => memAlloc_of_full hm hfull d n⟩, fun k h => ?_⟩
  · obtain ⟨ha, hfresh, rfl⟩ := memAlloc_ok hm h
    exact ⟨ha, memPresent_of_memArray_eq_none hfresh, memPut_zeros_spec m a n⟩
  · obtain ⟨_, hfull⟩ := memAlloc_error hm h
    exact hfull
  · obtain ⟨hkind, _⟩ := memAlloc_error hm h
    exact hkind

/-- Settles O53: the address itself is the draw for which it is answered. -/
theorem everyFreeAddressCanBeChosen : Obligations.EveryFreeAddressCanBeChosen :=
  fun _ a n ha hfree => ⟨a, _, memAlloc_of_draw ha hfree n⟩

/-- Settles O54: a free leaves no array at the address, where every access then fails its address check. -/
theorem freedAddressIsInactive : Obligations.FreedAddressIsInactive := by
  refine ⟨fun m m' a hm h => ?_, fun m a h => memFree_of_inactive (memArray_eq_none_of_not_memPresent h),
    fun m a => exists_memFree_ok⟩
  have hgone := memArray_memFree_self hm h
  have hinactive := memPresent_of_memArray_eq_none hgone
  exact ⟨hinactive, fun p hp => sameArray_of_memArray_eq (memArray_memFree_ne hm h hp), memRead_of_inactive hgone,
    memWrite_of_inactive hgone, memFree_of_inactive hgone, fun ha n => ⟨a, _, memAlloc_of_draw ha hinactive n⟩⟩

/-- Settles O55: the duplicate is the source's array put at address 0, and a write changes the array at one address. -/
theorem duplicateIsIndependent : Obligations.DuplicateIsIndependent := by
  refine ⟨fun m m' a hm h => ?_, fun m a h => memDupTo0_of_inactive (memArray_eq_none_of_not_memPresent h),
    fun m a h => ?_⟩
  · obtain ⟨x, hx, rfl⟩ := memDupTo0_ok h
    have hcopy : memArray (memPut m 0#32 x) 0#32 = memArray m a := by rw [memArray_memPut_self, hx]
    refine ⟨memLen_congr hcopy, memRead_congr hcopy, fun p hp => ?_, fun hzero => ?_, fun ha o v m'' hwrite => ?_,
      fun ha o v m'' hwrite => ?_⟩
    · exact sameArray_of_memArray_eq (memArray_memPut_ne m x hp)
    · exact memPut_of_memArray hm (hzero ▸ hx)
    · exact sameArray_memWrite_ne hwrite ha.symm
    · exact sameArray_memWrite_ne hwrite ha
  · obtain ⟨x, hx⟩ := Option.isSome_iff_exists.mp h
    exact ⟨_, memDupTo0_of_active hx⟩

/-- Settles O56: one equation of the entry per outcome of its two checks; an allocation's address passes both. -/
theorem explicitAllocationFaults : Obligations.ExplicitAllocationFaults := by
  refine ⟨fun m n => if_pos rfl, fun m a n ha hactive => ?_, fun m a n ha hfree => ?_, fun m d n hm a m' h => ?_⟩
  · rw [memAllocAt, if_neg ha, if_pos hactive]
  · exact ⟨_, memAllocAt_of_free ha (memArray_eq_none_of_not_memPresent hfree) n, memPut_zeros_spec m a n⟩
  · obtain ⟨ha, hfresh, rfl⟩ := memAlloc_ok hm h
    exact memAllocAt_of_free ha hfresh n

/-- Settles O2: the fetch at or past the end answers the halted state. -/
theorem fetchPastTheEndHalts : Obligations.FetchPastTheEndHalts := fun _ _ => step_of_past

/-- Settles O13: the LOAD port answers the empty program's machine, which is the reset state. -/
theorem resetIsTheEmptyProgram : Obligations.ResetIsTheEmptyProgram :=
  ⟨load_of_length_le (Nat.zero_le _), readReg_ofProgram [], rfl, rfl, rfl⟩

/-- Settles O14: the length is not within `PROG_MAX`. -/
theorem tooLongProgramIsRefused : Obligations.TooLongProgramIsRefused := fun _ h =>
  load_of_length_gt (Nat.sub_one_lt_of_le (Nat.two_pow_pos 32) h)

/-- Settles O16: the reset state is the empty program's machine. -/
theorem invariantAtReset : Obligations.InvariantAtReset := inv_ofProgram (p := []) (Nat.zero_le _)

/-- Settles O33: NAND is the complemented conjunction and ADD the sum of Words, so each identity is one of Boolean algebra
or of two's complement. -/
theorem derivedAluIdentities : Obligations.DerivedAluIdentities := by
  intro b c
  refine ⟨aluNand_self b, ?_, ?_, ?_, ?_, ?_⟩ <;> simp only [aluNand_self, aluAdd_eq, Except.bind]
  · simp only [aluNand_eq, BitVec.not_not]
  · rw [aluNand_eq, BitVec.not_and, BitVec.not_not, BitVec.not_not]
  · rw [BitVec.not_zero, ← BitVec.neg_one_eq_allOnes, BitVec.sub_eq_add_neg]
  · rw [BitVec.zero_sub, BitVec.neg_eq_not_add]
  · rw [BitVec.sub_eq_add_neg, BitVec.neg_eq_not_add, BitVec.add_assoc]

/-- Settles O49: LOADPROG from an active array stops where address 0 is not active. -/
theorem loadprogWithoutProgramStops : Obligations.LoadprogWithoutProgramStops := by
  intro b c s h0 hb
  obtain ⟨x, hx⟩ := Option.isSome_iff_exists.mp hb
  simp [exec, execLoadprog_eq, hx, h0]

end Sys2Proof.Machine
end
